-- ==== Sys2Proof/Word.lean ====
section
/-! DEFINITION. The value types of the block: bytes, 32-bit words, 72-bit command words, 36-bit response words. -/

namespace Sys2Proof

/-- `u8` of 00_scope.md R5. -/
abbrev Byte := BitVec 8

/-- `u32` of 00_scope.md R5. -/
abbrev Word := BitVec 32

/-- A command word, 30_encoding.md R50. -/
abbrev CmdWord := BitVec 72

/-- A response word, 30_encoding.md R53. -/
abbrev RespWord := BitVec 36

end Sys2Proof
end

