-- ==== Sys2Proof/Syntax.lean ====
section
/-! DEFINITION. The commands of the block as syntax: one constructor per row of spec/opcode_table.json. -/

namespace Sys2Proof

/-- The four bytes of a type tag, first emitted first (30_encoding.md R52). Any four bytes: whether a tag is
well-formed (41_chunk.md R102) is checked when CHUNK_START runs, not when it is decoded. -/
structure Tag where
  b0 : Byte
  b1 : Byte
  b2 : Byte
  b3 : Byte
  deriving DecidableEq, Repr

/-- The seven commands of 30_encoding.md R55. -/
inductive Instr where
  /-- RESET, 42_system.md R120. -/
  | reset
  /-- STATUS, 42_system.md R121. -/
  | status
  /-- CRC_INIT, 40_crc.md R86. -/
  | crcInit
  /-- CRC_BYTE d, 40_crc.md R87. -/
  | crcByte (d : Byte)
  /-- CRC_READ, 40_crc.md R88. -/
  | crcRead
  /-- CHUNK_START tag, n, 41_chunk.md R104. -/
  | chunkStart (tag : Tag) (n : Word)
  /-- CHUNK_DATA d, 41_chunk.md R108. -/
  | chunkData (d : Byte)
  deriving DecidableEq, Repr

end Sys2Proof
end

