-- ==== Sys2Proof/Decode.lean ====
section
/-! DEFINITION. The command word: its fields, the decoder (30_encoding.md R50 to R59) and the encoder, each written
from the encodings of 30_encoding.md R55. -/

namespace Sys2Proof

/-- The opcode field `w[71:64]` (30_encoding.md R50). -/
def opField (w : CmdWord) : Byte := w.extractLsb' 64 8

/-- The first operand field `w[63:32]` (30_encoding.md R50). -/
def aField (w : CmdWord) : Word := w.extractLsb' 32 32

/-- The second operand field `w[31:0]` (30_encoding.md R50). -/
def bField (w : CmdWord) : Word := w.extractLsb' 0 32

/-- The command word `op a b` (30_encoding.md R50). -/
def cmdWord (op : Byte) (a b : Word) : CmdWord := op ++ a ++ b

/-- The tag carried in field `a`, first byte most significant (30_encoding.md R52). -/
def tagOfField (a : Word) : Tag :=
  ⟨a.extractLsb' 24 8, a.extractLsb' 16 8, a.extractLsb' 8 8, a.extractLsb' 0 8⟩

/-- Field `a` for a tag (30_encoding.md R52). -/
def fieldOfTag (t : Tag) : Word := t.b0 ++ t.b1 ++ t.b2 ++ t.b3

/-- The data byte `b[7:0]` (30_encoding.md R51). -/
def dataByte (b : Word) : Byte := b.extractLsb' 0 8

/-- The reserved bits `b[31:8]` of CRC_BYTE and CHUNK_DATA (30_encoding.md R57). -/
def reservedHigh (b : Word) : BitVec 24 := b.extractLsb' 8 24

/-- Field `b` for a data byte: the reserved bits are zero (30_encoding.md R51, R57). -/
def fieldOfByte (d : Byte) : Word := d.setWidth 32

/-- Why a word is no command. Both are refused with `E_OPCODE` (60_exceptions.md R151). -/
inductive DecodeError where
  /-- The opcode is not one of the seven (30_encoding.md R58). -/
  | undefinedOpcode
  /-- A reserved bit of a defined opcode is 1 (30_encoding.md R57). -/
  | reservedBits
  deriving DecidableEq, Repr

/-- A command with no operand: `a` and `b` are reserved (30_encoding.md R57). -/
def decodePlain (a b : Word) (i : Instr) : Except DecodeError Instr :=
  if a = 0#32 ∧ b = 0#32 then .ok i else .error .reservedBits

/-- A command with a data byte: `a` and `b[31:8]` are reserved (30_encoding.md R57). -/
def decodeByte (a b : Word) (mk : Byte → Instr) : Except DecodeError Instr :=
  if a = 0#32 ∧ reservedHigh b = 0#24 then .ok (mk (dataByte b)) else .error .reservedBits

/-- Checks 1 and 2 of `step` (30_encoding.md R56): the command of a word, or why it has none. It does not depend on the
state (R59). -/
def decode (w : CmdWord) : Except DecodeError Instr :=
  if opField w = 0x01#8 then decodePlain (aField w) (bField w) .reset
  else if opField w = 0x02#8 then decodePlain (aField w) (bField w) .status
  else if opField w = 0x10#8 then decodePlain (aField w) (bField w) .crcInit
  else if opField w = 0x11#8 then decodeByte (aField w) (bField w) .crcByte
  else if opField w = 0x12#8 then decodePlain (aField w) (bField w) .crcRead
  else if opField w = 0x20#8 then .ok (.chunkStart (tagOfField (aField w)) (bField w))
  else if opField w = 0x21#8 then decodeByte (aField w) (bField w) .chunkData
  else .error .undefinedOpcode

/-- The word of a command (30_encoding.md R55). -/
def encode : Instr → CmdWord
  | .reset => cmdWord 0x01#8 0#32 0#32
  | .status => cmdWord 0x02#8 0#32 0#32
  | .crcInit => cmdWord 0x10#8 0#32 0#32
  | .crcByte d => cmdWord 0x11#8 0#32 (fieldOfByte d)
  | .crcRead => cmdWord 0x12#8 0#32 0#32
  | .chunkStart tag n => cmdWord 0x20#8 (fieldOfTag tag) n
  | .chunkData d => cmdWord 0x21#8 0#32 (fieldOfByte d)

/-- One row of the opcode map: a word is a well-formed encoding of the row's command exactly when
`word &&& mask = pattern` (30_encoding.md R55). -/
structure OpcodeRow where
  mask : CmdWord
  pattern : CmdWord
  deriving DecidableEq, Repr

/-- The row of 30_encoding.md R55 a command belongs to, its mask and its match as the table prints them. -/
def Instr.row : Instr → OpcodeRow
  | .reset => ⟨0xFFFFFFFFFFFFFFFFFF#72, 0x010000000000000000#72⟩
  | .status => ⟨0xFFFFFFFFFFFFFFFFFF#72, 0x020000000000000000#72⟩
  | .crcInit => ⟨0xFFFFFFFFFFFFFFFFFF#72, 0x100000000000000000#72⟩
  | .crcByte _ => ⟨0xFFFFFFFFFFFFFFFF00#72, 0x110000000000000000#72⟩
  | .crcRead => ⟨0xFFFFFFFFFFFFFFFFFF#72, 0x120000000000000000#72⟩
  | .chunkStart _ _ => ⟨0xFF0000000000000000#72, 0x200000000000000000#72⟩
  | .chunkData _ => ⟨0xFFFFFFFFFFFFFFFF00#72, 0x210000000000000000#72⟩

/-- The seven rows of 30_encoding.md R55, in the table's order. -/
def opcodeMap : List OpcodeRow :=
  [Instr.row .reset, Instr.row .status, Instr.row .crcInit, Instr.row (.crcByte 0#8), Instr.row .crcRead,
    Instr.row (.chunkStart ⟨0#8, 0#8, 0#8, 0#8⟩ 0#32), Instr.row (.chunkData 0#8)]

/-- The word whose `nbits` low bits are those of `w` and whose other bits are 0. A command is one 72-bit word, so the
table's bit i is bit i of the word (30_encoding.md R50, R59). -/
def tableWord (nbits w : Nat) : CmdWord := BitVec.ofNat 72 (w % 2 ^ nbits)

/-- The command the decoder reads from a word of the opcode table, if it reads one. -/
def decodeTableWord (nbits w : Nat) : Option Instr :=
  match decode (tableWord nbits w) with
  | .ok i => some i
  | .error _ => none

end Sys2Proof
end

