-- ==== Sys2Proof/Config.lean ====
section
/-! DEFINITION. The parameters of 00_scope.md R4. All are fixed by the spec; the block has no free value and no
implementation-defined one (93_implementation_defined.md, end of part 1). -/

namespace Sys2Proof.Config

/-- The generator polynomial in normal form (40_crc.md R80): bit i is the coefficient of x^i, x^32 implied. -/
def polyNormal : Word := 0x04C11DB7#32

/-- The reflected form of the polynomial, the constant the computation uses (40_crc.md R81, 90_conflicts.md C1). -/
def polyReflected : Word := 0xEDB88320#32

/-- The initial value of the CRC register (00_scope.md R4). -/
def seed : Word := 0xFFFFFFFF#32

/-- The mask of the final complement (00_scope.md R4). -/
def complementMask : Word := 0xFFFFFFFF#32

/-- The largest payload, 2^32 - 1 bytes (00_scope.md R4, 41_chunk.md R103). -/
def maxPayload : Nat := 4294967295

/-- The largest byte of a well-formed tag (41_chunk.md R102). -/
def maxTagByte : Byte := 0x7F#8

end Sys2Proof.Config
end

