-- ==== Sys2Proof/WellFormed.lean ====
section
/-! DEFINITION. What the spec calls well-formed beyond the form of the types: the type tag (41_chunk.md R102) and the
length of a payload (41_chunk.md R103). Every `Instr` has an encoding; a tag that is not well-formed is a legal operand
that CHUNK_START refuses with E_TAG, so these checks are premises of claims and a check of the meaning, not of decoding. -/

namespace Sys2Proof

/-- Each of the four bytes is in the range 0x00 to 0x7F (41_chunk.md R102). -/
def Tag.wellFormed (t : Tag) : Bool :=
  decide (t.b0 ≤ Config.maxTagByte) && decide (t.b1 ≤ Config.maxTagByte) &&
    decide (t.b2 ≤ Config.maxTagByte) && decide (t.b3 ≤ Config.maxTagByte)

/-- A command whose operands are all well-formed: the tag of CHUNK_START is (41_chunk.md R102). -/
def Instr.wellFormed : Instr → Bool
  | .reset => true
  | .status => true
  | .crcInit => true
  | .crcByte _ => true
  | .crcRead => true
  | .chunkStart tag _ => tag.wellFormed
  | .chunkData _ => true

/-- A payload whose length the 32-bit length field can hold (41_chunk.md R103, 30_encoding.md R60). -/
def payloadFits (payload : List Byte) : Bool := decide (payload.length ≤ Config.maxPayload)

end Sys2Proof
end

