-- ==== Sys2Proof/Machine/Operands.lean ====
section
/-! DEFINITION. The byte forms of the operands and of the fields the block serialises (20_memory.md R32 to R35,
41_chunk.md R102). -/

namespace Sys2Proof.Machine

/-- `be32(v)`: four bytes, most significant first (20_memory.md R33). -/
def be32 (v : Word) : List Byte :=
  [v.extractLsb' 24 8, v.extractLsb' 16 8, v.extractLsb' 8 8, v.extractLsb' 0 8]

/-- The four tag bytes in wire order (20_memory.md R35). -/
def tagBytes (t : Tag) : List Byte := [t.b0, t.b1, t.b2, t.b3]

/-- Check 5 of 30_encoding.md R56: some byte of the tag is greater than 0x7F (60_exceptions.md R153). -/
def tagRefused (t : Tag) : Bool := (tagBytes t).any (fun b => decide (0x7F#8 < b))

/-- The big-endian value of four bytes, the reverse of `be32`; used by a host that reads a chunk back
(43_host_sequences.md R141). -/
def ofBe32 (b0 b1 b2 b3 : Byte) : Word := b0 ++ b1 ++ b2 ++ b3

end Sys2Proof.Machine
end

