-- ==== Sys2Proof/Machine/State.lean ====
section
/-! DEFINITION. The state of the block as plain data (10_state.md R10 to R14), the events it takes, its fault codes, the
outcome types, and the state after a power-on reset (10_state.md R23). -/

namespace Sys2Proof.Machine

/-- `PHASE` (10_state.md R12). The register is 2 bits wide; its value 3 is taken by no rule, so it is no constructor
(DEDUCED, log entry 5). Its code is `phaseCode`. -/
inductive Phase where
  /-- 0: no chunk is open. -/
  | idle
  /-- 1: a chunk is open and payload bytes are owed. -/
  | payload
  /-- 2: a command was refused; only STATUS and RESET are performed. -/
  | fault
  deriving DecidableEq, Repr

/-- The fault codes of 60_exceptions.md R150. Their numbers are `faultCode`. Entering one is a NEXT state of the machine
(`raiseFault`), as 60_exceptions.md R155 describes it, and no outcome that stops it. -/
inductive FaultCode where
  /-- `E_OPCODE`: undefined opcode or reserved bit set (R151). -/
  | eOpcode
  /-- `E_STATE`: a well-formed command not legal in the phase (R152). -/
  | eState
  /-- `E_TAG`: a tag byte above 0x7F (R153). -/
  | eTag
  /-- `E_HALTED`: the block is in `FAULT` (R154). -/
  | eHalted
  deriving DecidableEq, Repr

/-- What the host or the environment can present to the block. -/
inductive Event where
  /-- A command word on the command port (30_encoding.md R50); the host may present any word (43_host_sequences.md R142). -/
  | command (w : CmdWord)
  /-- A power-on reset: "an event of the model, not a command" (70_reset_and_hazards.md R180). -/
  | powerOn
  deriving DecidableEq, Repr

/-- The state of the block, and two lists that are the model's own: what is presented to it, what it has answered. -/
structure State where
  /-- `CRC`, the running remainder before the final complement (10_state.md R10). -/
  crc : Word
  /-- `REM`, the payload bytes the open chunk still owes (10_state.md R11). -/
  rem : Word
  /-- `PHASE` (10_state.md R12). -/
  phase : Phase
  /-- `ERR`, the code of the first fault since reset (10_state.md R13). -/
  err : BitVec 4
  /-- `OUT`, the output byte stream, first byte first (10_state.md R14). -/
  out : List Byte
  /-- Events presented and not yet taken, next one first (DESIGN CHOICE, log entry 1). -/
  port : List Event
  /-- Response words given since power-on, oldest first (DESIGN CHOICE, log entry 4). -/
  responses : List RespWord
  deriving DecidableEq, Repr

/-- The machine right after a power-on reset (10_state.md R23). Nothing is presented and nothing has been answered
(log entries 1 and 4). -/
def State.reset : State where
  crc := 0xFFFFFFFF#32
  rem := 0#32
  phase := .idle
  err := 0#4
  out := []
  port := []
  responses := []

/-- Reasons for the machine to stop with a fault: none. The block answers every command word (30_encoding.md R58) and a
refused command is a next state (60_exceptions.md R155), so no rule of the spec stops the machine. Safe: nothing raises
it. -/
inductive Fault where
  deriving DecidableEq, Repr

/-- Reasons for the model to refuse an instruction. -/
inductive Refusal where
  /-- Raised only by an arm of `exec` whose instruction has no meaning yet; no arm is left in that state. Safe: the model
  stops where the hardware goes on. -/
  | notModelled (mnemonic : String)
  deriving DecidableEq, Repr

end Sys2Proof.Machine
end

