-- ==== Sys2Proof/Machine/Ops.lean ====
section
/-! DEFINITION. The shared operations of the meanings: emission to OUT, the response word, fault entry, the phase check,
a power-on reset, and taking the next event from the port. -/

namespace Sys2Proof.Machine

/-- `Emit(b)` (20_memory.md R31): the only operation on OUT. -/
def emit (b : Byte) (s : State) : State := { s with out := s.out ++ [b] }

/-- Emission of bytes one after the other, first byte first (20_memory.md R37, R42). -/
def emitAll : List Byte → State → State
  | [], s => s
  | b :: bs, s => emitAll bs (emit b s)

/-- `emit_u32_be(v)` (20_memory.md R33). -/
def emitU32 (v : Word) (s : State) : State := emitAll (be32 v) s

/-- The response word `code ‖ val` (30_encoding.md R53). -/
def respWord (code : BitVec 4) (val : Word) : RespWord := code ++ val

/-- The `code` field of a response word (30_encoding.md R53). -/
def respCode (r : RespWord) : BitVec 4 := r.extractLsb' 32 4

/-- The `val` field of a response word (30_encoding.md R53). -/
def respVal (r : RespWord) : Word := r.extractLsb' 0 32

/-- Gives a response word to the host. -/
def answer (code : BitVec 4) (val : Word) (s : State) : State :=
  { s with responses := s.responses ++ [respWord code val] }

/-- `respond(val)` (00_scope.md R7): the command ends normally, code 0. -/
def respond (val : Word) (s : State) : State := answer 0#4 val s

/-- The numbers of the fault codes (60_exceptions.md R150). -/
def faultCode : FaultCode → BitVec 4
  | .eOpcode => 1#4
  | .eState => 2#4
  | .eTag => 3#4
  | .eHalted => 4#4

/-- The state part of fault entry (60_exceptions.md R155): ERR and PHASE are written only on the transition into FAULT. -/
def enterFault (c : FaultCode) (s : State) : State :=
  match s.phase with
  | .fault => s
  | .idle | .payload => { s with err := faultCode c, phase := .fault }

/-- `raise Fault(code)` (60_exceptions.md R155): fault entry, then the response `code = code, val = 0`. -/
def raiseFault (c : FaultCode) (s : State) : State := answer (faultCode c) 0#32 (enterFault c s)

/-- Checks 3 and 4 of 30_encoding.md R56 for a command that is legal in one phase only: E_HALTED in FAULT, E_STATE in the
other phase, none in the legal one. -/
def phaseFault (legal : Phase) (s : State) : Option FaultCode :=
  if s.phase = .fault then some .eHalted
  else if s.phase = legal then none
  else some .eState

/-- The register part of every reset (10_state.md R23, 42_system.md R120): PHASE, ERR, CRC and REM at their reset values. -/
def resetRegisters (s : State) : State :=
  { s with phase := .idle, err := 0#4, crc := Config.seed, rem := 0#32 }

/-- A power-on reset (70_reset_and_hazards.md R180): the reset state with a new, empty output stream. What the host has
still to present is the host's and stays; the record of responses starts anew (DESIGN CHOICE, log entry 3). -/
def powerOnReset (s : State) : State := { State.reset with port := s.port }

/-- The next event at the port and the state that has taken it, or none when nothing is presented (00_scope.md R9). -/
def nextEvent (s : State) : Option (Event × State) :=
  match s.port with
  | [] => none
  | e :: rest => some (e, { s with port := rest })

end Sys2Proof.Machine
end

