-- ==== Sys2Proof/Machine/Crc.lean ====
section
/-! DEFINITION. The CRC-32 generator (40_crc.md): its function in three forms, and the commands CRC_INIT, CRC_BYTE,
CRC_READ. The reflected reading is the spec's own (R81, 90_conflicts.md C1). -/

namespace Sys2Proof.Machine

/-- `NOT_32(a)` (00_scope.md R6). -/
def not32 (a : Word) : Word := a ^^^ Config.complementMask

/-- One shift step of 40_crc.md R82: right by one, and the constant XORed in if the bit shifted out was 1. -/
def shiftStep (c : Word) : Word :=
  if c.getLsbD 0 then (c >>> 1) ^^^ Config.polyReflected else c >>> 1

/-- `k` shift steps. -/
def shiftSteps : Nat → Word → Word
  | 0, c => c
  | k + 1, c => shiftSteps k (shiftStep c)

/-- `crc_update(c, d)` (40_crc.md R82). -/
def crcUpdate (c : Word) (d : Byte) : Word := shiftSteps 8 (c ^^^ d.setWidth 32)

/-- `crc_bytes(c, s)` (40_crc.md R83): first byte first. -/
def crcBytes : Word → List Byte → Word
  | c, [] => c
  | c, d :: t => crcBytes (crcUpdate c d) t

/-- `crc32(s)` (40_crc.md R84): seed, fold, complement. -/
def crc32 (s : List Byte) : Word := not32 (crcBytes Config.seed s)

/-- The table entry `T[k]` (40_crc.md R85 a). -/
def tableEntry (k : Byte) : Word := crcUpdate (k.setWidth 32) 0#8

/-- The table form of `crc_update` (40_crc.md R85 a). -/
def crcUpdateByTable (c : Word) (d : Byte) : Word :=
  tableEntry ((c ^^^ d.setWidth 32).extractLsb' 0 8) ^^^ (c >>> 8)

/-- `rev32` (40_crc.md R85 b). -/
def rev32 (c : Word) : Word := c.reverse

/-- `rev8` (40_crc.md R85 b). -/
def rev8 (d : Byte) : Byte := d.reverse

/-- One step of the normal form (40_crc.md R85 b): left by one, and 0x04C11DB7 XORed in if bit 31 was 1. -/
def normalStep (r : Word) : Word :=
  if r.getLsbD 31 then (r <<< 1) ^^^ Config.polyNormal else r <<< 1

/-- `k` steps of the normal form. -/
def normalSteps : Nat → Word → Word
  | 0, r => r
  | k + 1, r => normalSteps k (normalStep r)

/-- One byte in the normal form (40_crc.md R85 b). -/
def normalUpdate (r : Word) (d : Byte) : Word := normalSteps 8 (r ^^^ ((rev8 d).setWidth 32 <<< 24))

/-- A message in the normal form, first byte first (40_crc.md R85 b). -/
def normalBytes : Word → List Byte → Word
  | r, [] => r
  | r, d :: t => normalBytes (normalUpdate r d) t

/-- `crc32` computed in the normal form, most significant bit first (40_crc.md R85 b). -/
def crc32Normal (s : List Byte) : Word := not32 (rev32 (normalBytes (rev32 Config.seed) s))

/-- CRC_INIT (40_crc.md R86): legal in IDLE. -/
def execCrcInit (s : State) : Host.Outcome State Fault Refusal :=
  match phaseFault .idle s with
  | some c => .next (raiseFault c s)
  | none => .next (respond 0#32 { s with crc := Config.seed })

/-- CRC_BYTE d (40_crc.md R87): legal in IDLE; continues from whatever CRC holds. -/
def execCrcByte (d : Byte) (s : State) : Host.Outcome State Fault Refusal :=
  match phaseFault .idle s with
  | some c => .next (raiseFault c s)
  | none => .next (respond 0#32 { s with crc := crcUpdate s.crc d })

/-- CRC_READ (40_crc.md R88): legal in IDLE; the register keeps the uncomplemented remainder. -/
def execCrcRead (s : State) : Host.Outcome State Fault Refusal :=
  match phaseFault .idle s with
  | some c => .next (raiseFault c s)
  | none => .next (respond (not32 s.crc) s)

end Sys2Proof.Machine
end

