-- ==== Sys2Proof/Machine/Chunk.lean ====
section
/-! DEFINITION. The chunk framer (41_chunk.md): the function `make_chunk`, and the commands CHUNK_START, CHUNK_DATA. -/

namespace Sys2Proof.Machine

/-- `make_chunk(tag, payload)` (41_chunk.md R100, the layout of 30_encoding.md R54). Its contract covers payloads of at
most 2^32 - 1 bytes (`payloadFits`); outside it
the length is taken modulo 2^32 (DESIGN CHOICE, log entry 16). -/
def makeChunk (tag : Tag) (payload : List Byte) : List Byte :=
  be32 (BitVec.ofNat 32 payload.length) ++ tagBytes tag ++ payload ++ be32 (crc32 (tagBytes tag ++ payload))

/-- The end of a chunk (41_chunk.md R104, R108): the trailer `be32(NOT_32(CRC))`, and back to IDLE. -/
def closeChunk (s : State) : State := { emitU32 (not32 s.crc) s with phase := .idle }

/-- The performed part of CHUNK_START (41_chunk.md R104), in the order of its pseudocode. -/
def openChunk (tag : Tag) (n : Word) (s : State) : State :=
  let s := emitU32 n s
  let s := emitAll (tagBytes tag) s
  let s := { s with crc := crcBytes Config.seed (tagBytes tag), rem := n }
  if n = 0#32 then closeChunk s else { s with phase := .payload }

/-- The performed part of CHUNK_DATA (41_chunk.md R108), in the order of its pseudocode. REM is at least 1 here in every
state a run reaches (10_state.md R20); outside those states the subtraction wraps (log entry 6). -/
def feedChunk (d : Byte) (s : State) : State :=
  let s := emit d s
  let s := { s with crc := crcUpdate s.crc d, rem := s.rem - 1#32 }
  if s.rem = 0#32 then closeChunk s else s

/-- CHUNK_START tag, n (41_chunk.md R104): legal in IDLE and with a well-formed tag, checked in that order
(30_encoding.md R56). -/
def execChunkStart (tag : Tag) (n : Word) (s : State) : Host.Outcome State Fault Refusal :=
  match phaseFault .idle s with
  | some c => .next (raiseFault c s)
  | none =>
    if tagRefused tag then .next (raiseFault .eTag s)
    else .next (respond (openChunk tag n s).rem (openChunk tag n s))

/-- CHUNK_DATA d (41_chunk.md R108): legal in PAYLOAD. -/
def execChunkData (d : Byte) (s : State) : Host.Outcome State Fault Refusal :=
  match phaseFault .payload s with
  | some c => .next (raiseFault c s)
  | none => .next (respond (feedChunk d s).rem (feedChunk d s))

end Sys2Proof.Machine
end

