-- ==== Sys2Proof/Machine/Flags.lean ====
section
/-! DEFINITION. The block has no flags and no command sets one (10_state.md R16). Its only status bits are PHASE and ERR,
shown in the status word that STATUS composes on demand (10_state.md R17). -/

namespace Sys2Proof.Machine

/-- The 2-bit code of PHASE (10_state.md R12). -/
def phaseCode : Phase → BitVec 2
  | .idle => 0#2
  | .payload => 1#2
  | .fault => 2#2

/-- The status word: PHASE in bits 1:0, ERR in bits 7:4, zero elsewhere (42_system.md R121, 10_state.md R17). -/
def statusWord (s : State) : Word := (s.err.setWidth 32 <<< 4) ^^^ (phaseCode s.phase).setWidth 32

end Sys2Proof.Machine
end

