-- ==== Sys2Proof/Machine/System.lean ====
section
/-! DEFINITION. The system commands, 42_system.md. -/

namespace Sys2Proof.Machine

/-- RESET (42_system.md R120): legal in every phase; OUT is left alone. -/
def execReset (s : State) : Host.Outcome State Fault Refusal := .next (respond 0#32 (resetRegisters s))

/-- STATUS (42_system.md R121): legal in every phase; changes nothing. -/
def execStatus (s : State) : Host.Outcome State Fault Refusal := .next (respond (statusWord s) s)

end Sys2Proof.Machine
end

