-- ==== Sys2Proof/Machine/Dispatch.lean ====
section
/-! DEFINITION. `exec`: checks 3 to 5 and the performance of a decoded command (30_encoding.md R56), one arm a command. -/

namespace Sys2Proof.Machine

def exec (i : Instr) (s : State) : Host.Outcome State Fault Refusal :=
  match i with
  | .reset => Sys2Proof.Machine.execReset s
  | .status => Sys2Proof.Machine.execStatus s
  | .crcInit => Sys2Proof.Machine.execCrcInit s
  | .crcByte d => Sys2Proof.Machine.execCrcByte d s
  | .crcRead => Sys2Proof.Machine.execCrcRead s
  | .chunkStart tag n => Sys2Proof.Machine.execChunkStart tag n s
  | .chunkData d => Sys2Proof.Machine.execChunkData d s

end Sys2Proof.Machine
end

