-- ==== Sys2Proof/Machine/Port.lean ====
section
/-! DEFINITION. What the block does with one event of its port: a command word (30_encoding.md R56) or a power-on reset
(70_reset_and_hazards.md R180). -/

namespace Sys2Proof.Machine

/-- `step(S, w)` of 30_encoding.md R56: a word that is no command is refused with E_OPCODE (checks 1 and 2), any other is
given to `exec` (checks 3 to 6). -/
def acceptWord (w : CmdWord) (s : State) : Host.Outcome State Fault Refusal :=
  match decode w with
  | .error _ => .next (raiseFault .eOpcode s)
  | .ok i => exec i s

/-- The effect of one event. -/
def acceptEvent (e : Event) (s : State) : Host.Outcome State Fault Refusal :=
  match e with
  | .command w => acceptWord w s
  | .powerOn => .next (powerOnReset s)

/-- One step: the next event is taken and handled; with nothing presented the block holds its state
(60_exceptions.md R167, log entry 2). -/
def stepEvent (s : State) : Host.Outcome State Fault Refusal :=
  match nextEvent s with
  | none => .next s
  | some (e, s') => acceptEvent e s'

/-- The state to which the host presents one more word, before all it has presented so far (log entry 8). -/
def presentFirst (w : CmdWord) (s : State) : State := { s with port := .command w :: s.port }

end Sys2Proof.Machine
end

