-- ==== Sys2Proof/Machine/Step.lean ====
section
/-! DEFINITION. The step of the machine and the placing of a command where the next step takes it. -/

namespace Sys2Proof.Machine

/-- One step of the block (00_scope.md R9): see `stepEvent`. -/
def step (s : State) : Host.Outcome State Fault Refusal := stepEvent s

/-- The state at whose port the word of an opcode-table row is the next event. -/
def State.withFetchWord (s : State) (nbits w : Nat) : State := presentFirst (tableWord nbits w) s

end Sys2Proof.Machine
end

