-- ==== Sys2Proof/Machine/Assembler.lean ====
section
/-! DEFINITION. The host of the block, the document's Image Assembler, as far as it decides what the block receives
(43_host_sequences.md): the pseudo-commands, the payloads, the command sequence of an image, the assembled file, the
check of a chunk. It is not part of the block (00_scope.md R3): no step of the machine uses this file. -/

namespace Sys2Proof.Machine

/-- Pseudo-command `CHUNK tag, d0 d1 ... d(n-1)` (30_encoding.md R62). It stands for the payloads that fit the length field
(`payloadFits`, 41_chunk.md R103): a longer one has no expansion in R62, and the text form (`chunkLine`) and the host of
an image (`prepareImage`) refuse it before anything is expanded (R60). The value here, the length modulo 2^32, stands for nothing of the spec
(DESIGN CHOICE, log entry 16). -/
def chunkCommands (tag : Tag) (payload : List Byte) : List Instr :=
  .chunkStart tag (BitVec.ofNat 32 payload.length) :: payload.map .chunkData

/-- Pseudo-command `CRC32 d0 d1 ... d(n-1)` (30_encoding.md R62). -/
def crc32Commands (s : List Byte) : List Instr := .crcInit :: s.map .crcByte ++ [.crcRead]

/-- The words of commands as events at the port, in order (00_scope.md R9). -/
def commandEvents (is : List Instr) : List Event := is.map (fun i => .command (encode i))

/-- The host presents commands, in order, after all it has presented so far (00_scope.md R9). -/
def presentAll (is : List Instr) (s : State) : State := { s with port := s.port ++ commandEvents is }

/-- The type tag IHDR, `49 48 44 52` (00_scope.md section 8). -/
def tagIHDR : Tag := ⟨0x49#8, 0x48#8, 0x44#8, 0x52#8⟩

/-- The type tag IDAT, `49 44 41 54` (00_scope.md section 8). -/
def tagIDAT : Tag := ⟨0x49#8, 0x44#8, 0x41#8, 0x54#8⟩

/-- The type tag IEND, `49 45 4E 44` (00_scope.md section 8). -/
def tagIEND : Tag := ⟨0x49#8, 0x45#8, 0x4E#8, 0x44#8⟩

/-- A pixel, three colour bytes in the order r, g, b (43_host_sequences.md R131, R133). -/
structure Pixel where
  r : Byte
  g : Byte
  b : Byte
  deriving DecidableEq, Repr

/-- The host's input (43_host_sequences.md R131). -/
structure RasterImage where
  width : Word
  height : Word
  pixels : List Pixel
  deriving DecidableEq, Repr

/-- The invariant of a RasterImage: both dimensions positive, and one pixel for each place
(43_host_sequences.md R131, 90_conflicts.md C3, C4). -/
def RasterImage.valid (img : RasterImage) : Bool :=
  decide (img.width ≠ 0#32) && decide (img.height ≠ 0#32) &&
    decide (img.pixels.length = img.width.toNat * img.height.toNat)

/-- The IHDR payload, 13 bytes (43_host_sequences.md R132). -/
def ihdrPayload (width height : Word) : List Byte :=
  be32 width ++ be32 height ++ [0x08#8, 0x02#8, 0x00#8, 0x00#8, 0x00#8]

/-- The three colour bytes of the pixel at an index; none where the image has no such pixel. -/
def pixelBytes (pixels : List Pixel) (k : Nat) : List Byte :=
  match pixels[k]? with
  | some p => [p.r, p.g, p.b]
  | none => []

/-- The scanline buffer: for each row the filter byte 0x00, then the pixels in row-major order
(43_host_sequences.md R133). -/
def scanlines (img : RasterImage) : List Byte :=
  (List.range img.height.toNat).flatMap fun y =>
    0x00#8 :: (List.range img.width.toNat).flatMap fun x => pixelBytes img.pixels (y * img.width.toNat + x)

/-- The fixed 8-byte signature, written by the host and never passed through the block (43_host_sequences.md R136). -/
def signature : List Byte := [0x89#8, 0x50#8, 0x4E#8, 0x47#8, 0x0D#8, 0x0A#8, 0x1A#8, 0x0A#8]

/-- The host's command sequence for one image, with `z` the compressed scanline buffer (43_host_sequences.md R138). -/
def imageCommands (width height : Word) (z : List Byte) : List Instr :=
  chunkCommands tagIHDR (ihdrPayload width height) ++ chunkCommands tagIDAT z ++ chunkCommands tagIEND []

/-- The three chunks of an image in their order (43_host_sequences.md R136, R137). -/
def imageChunks (width height : Word) (z : List Byte) : List Byte :=
  makeChunk tagIHDR (ihdrPayload width height) ++ makeChunk tagIDAT z ++ makeChunk tagIEND []

/-- What makes the host issue no command at all (43_host_sequences.md R139, 30_encoding.md R60). `ε` is the compressor's
own error, surfaced unchanged. -/
inductive HostError (ε : Type) where
  /-- `InvalidDimensions`: a zero dimension or a wrong pixel count. -/
  | invalidDimensions
  /-- `CompressionFailure`, raised by the compressor and passed through. -/
  | compressionFailure (e : ε)
  /-- A payload longer than 2^32 - 1 bytes: rejected before calling. -/
  | payloadTooLong
  deriving DecidableEq, Repr

/-- The host's preparation before the first command (43_host_sequences.md R138): the compressed buffer, or the error that
keeps it from issuing any command. The compressor is an argument (93_implementation_defined.md U12, log entry 9). -/
def prepareImage {ε : Type} (compress : List Byte → Except ε (List Byte)) (img : RasterImage) :
    Except (HostError ε) (List Byte) :=
  if img.valid then
    match compress (scanlines img) with
    | .error e => .error (.compressionFailure e)
    | .ok z => if payloadFits z then .ok z else .error .payloadTooLong
  else .error .invalidDimensions

/-- The commands the host issues for an image (43_host_sequences.md R138), or its error. -/
def hostCommands {ε : Type} (compress : List Byte → Except ε (List Byte)) (img : RasterImage) :
    Except (HostError ε) (List Instr) :=
  match prepareImage compress img with
  | .error e => .error e
  | .ok z => .ok (imageCommands img.width img.height z)

/-- `encode_png(image)` (43_host_sequences.md R130, R136): the signature in front of the three chunks, or the error. -/
def encodePng {ε : Type} (compress : List Byte → Except ε (List Byte)) (img : RasterImage) :
    Except (HostError ε) (List Byte) :=
  match prepareImage compress img with
  | .error e => .error e
  | .ok z => .ok (signature ++ imageChunks img.width img.height z)

/-- A chunk read back, `L ‖ tag ‖ payload ‖ C` (43_host_sequences.md R141). -/
structure ReadChunk where
  tag : Tag
  payload : List Byte
  trailer : Word
  deriving DecidableEq, Repr

/-- Reads one chunk from the front of a byte sequence; none when the sequence is not exactly one encoded chunk by its own
length field (30_encoding.md R54, 43_host_sequences.md R141; DESIGN CHOICE, log entry 15). -/
def readChunk : List Byte → Option ReadChunk
  | l0 :: l1 :: l2 :: l3 :: t0 :: t1 :: t2 :: t3 :: rest =>
    match rest.drop (ofBe32 l0 l1 l2 l3).toNat with
    | [c0, c1, c2, c3] =>
      some ⟨⟨t0, t1, t2, t3⟩, rest.take (ofBe32 l0 l1 l2 l3).toNat, ofBe32 c0 c1 c2 c3⟩
    | _ => none
  | _ => none

/-- The commands by which a host recomputes the CRC of a chunk it has read back; the length bytes are not fed
(43_host_sequences.md R141). -/
def checkCommands (c : ReadChunk) : List Instr := crc32Commands (tagBytes c.tag ++ c.payload)

/-- The host's comparison of the recomputed CRC with the stored trailer (43_host_sequences.md R141). -/
def trailerMatches (c : ReadChunk) (recomputed : Word) : Bool := decide (recomputed = c.trailer)

end Sys2Proof.Machine
end

