-- ==== Sys2Proof/Machine/Text.lean ====
section
/-! DEFINITION. The text form of command sequences (30_encoding.md R61, R62): reading a line, printing a command, and the
three-group notation of a command word. It belongs to the notation, not to the block: no step of the machine uses it.
What R61 leaves open is in log entry 10. -/

namespace Sys2Proof.Machine

/-- The parts of a line. -/
inductive Token where
  /-- A run of characters without white space, comma or semicolon. -/
  | word (cs : List Char)
  /-- The characters between two double quotes. -/
  | quoted (cs : List Char)
  | comma
  deriving DecidableEq, Repr

/-- The double quote. -/
def quoteMark : Char := Char.ofNat 34

/-- Ends the word under way, held in reverse. -/
def flushWord (acc : List Char) (ts : List Token) : List Token :=
  match acc with
  | [] => ts
  | c :: cs => .word (c :: cs).reverse :: ts

/-- The tokens of a line; a comment starts with a semicolon and runs to the end (30_encoding.md R61). `acc` is the word or
quotation under way, in reverse; none when a quotation is left open or starts inside a word. -/
def lexLine (acc : List Char) (quoting : Bool) : List Char → Option (List Token)
  | [] => if quoting then none else some (flushWord acc [])
  | c :: cs =>
    if quoting then
      if c = quoteMark then (lexLine [] false cs).map (fun ts => .quoted acc.reverse :: ts)
      else lexLine (c :: acc) true cs
    else if c = ';' then some (flushWord acc [])
    else if c = ' ' then (lexLine [] false cs).map (flushWord acc)
    else if c = ',' then (lexLine [] false cs).map (fun ts => flushWord acc (.comma :: ts))
    else if c = quoteMark then (if acc = [] then lexLine [] true cs else none)
    else lexLine (c :: acc) false cs

/-- The value of a hexadecimal digit. -/
def hexDigit (c : Char) : Option Nat :=
  if 48 ≤ c.toNat ∧ c.toNat ≤ 57 then some (c.toNat - 48)
  else if 65 ≤ c.toNat ∧ c.toNat ≤ 70 then some (c.toNat - 55)
  else if 97 ≤ c.toNat ∧ c.toNat ≤ 102 then some (c.toNat - 87)
  else none

/-- The value of a decimal digit. -/
def decDigit (c : Char) : Option Nat :=
  if 48 ≤ c.toNat ∧ c.toNat ≤ 57 then some (c.toNat - 48) else none

/-- The value of digits in a base, most significant first, going on from `acc`. -/
def digitsValue (base : Nat) (digit : Char → Option Nat) (acc : Nat) : List Char → Option Nat
  | [] => some acc
  | c :: cs =>
    match digit c with
    | some k => digitsValue base digit (acc * base + k) cs
    | none => none

/-- A `0x` hexadecimal number of at least one digit. -/
def hexNumber : List Char → Option Nat
  | '0' :: 'x' :: c :: cs => digitsValue 16 hexDigit 0 (c :: cs)
  | _ => none

/-- A number in decimal or in `0x` hexadecimal. -/
def number (cs : List Char) : Option Nat :=
  match cs with
  | [] => none
  | '0' :: 'x' :: _ => hexNumber cs
  | c :: t => digitsValue 10 decDigit 0 (c :: t)

/-- A 32-bit number: out of range is no operand (30_encoding.md R60). -/
def word32 (n : Option Nat) : Option Word :=
  match n with
  | some k => if k < 2 ^ 32 then some (BitVec.ofNat 32 k) else none
  | none => none

/-- A data byte: `0x` and two hexadecimal digits (30_encoding.md R61). -/
def byteOperand : Token → Option Byte
  | .word ['0', 'x', h, l] => (hexNumber ['0', 'x', h, l]).map (BitVec.ofNat 8)
  | _ => none

/-- The ASCII code of a character of a quoted tag (30_encoding.md R61). -/
def asciiByte (c : Char) : Option Byte := if c.toNat ≤ 127 then some (BitVec.ofNat 8 c.toNat) else none

/-- A tag: four characters in double quotes, or a 32-bit hexadecimal number (30_encoding.md R61, R52). -/
def tagOperand : Token → Option Tag
  | .quoted [c0, c1, c2, c3] =>
    match asciiByte c0, asciiByte c1, asciiByte c2, asciiByte c3 with
    | some b0, some b1, some b2, some b3 => some ⟨b0, b1, b2, b3⟩
    | _, _, _, _ => none
  | .word cs => (word32 (hexNumber cs)).map tagOfField
  | _ => none

/-- A length: decimal or `0x` hexadecimal (30_encoding.md R61). -/
def lengthOperand : Token → Option Word
  | .word cs => word32 (number cs)
  | _ => none

/-- A sequence of data bytes (30_encoding.md R62). -/
def byteOperands : List Token → Option (List Byte)
  | [] => some []
  | t :: ts =>
    match byteOperand t, byteOperands ts with
    | some d, some ds => some (d :: ds)
    | _, _ => none

/-- The mnemonic or pseudo-mnemonic `RESET` (30_encoding.md R55). -/
def nameReset : List Char := ['R', 'E', 'S', 'E', 'T']

/-- The mnemonic or pseudo-mnemonic `STATUS` (30_encoding.md R55). -/
def nameStatus : List Char := ['S', 'T', 'A', 'T', 'U', 'S']

/-- The mnemonic or pseudo-mnemonic `CRC_INIT` (30_encoding.md R55). -/
def nameCrcInit : List Char := ['C', 'R', 'C', '_', 'I', 'N', 'I', 'T']

/-- The mnemonic or pseudo-mnemonic `CRC_BYTE` (30_encoding.md R55). -/
def nameCrcByte : List Char := ['C', 'R', 'C', '_', 'B', 'Y', 'T', 'E']

/-- The mnemonic or pseudo-mnemonic `CRC_READ` (30_encoding.md R55). -/
def nameCrcRead : List Char := ['C', 'R', 'C', '_', 'R', 'E', 'A', 'D']

/-- The mnemonic or pseudo-mnemonic `CHUNK_START` (30_encoding.md R55). -/
def nameChunkStart : List Char := ['C', 'H', 'U', 'N', 'K', '_', 'S', 'T', 'A', 'R', 'T']

/-- The mnemonic or pseudo-mnemonic `CHUNK_DATA` (30_encoding.md R55). -/
def nameChunkData : List Char := ['C', 'H', 'U', 'N', 'K', '_', 'D', 'A', 'T', 'A']

/-- The mnemonic or pseudo-mnemonic `CHUNK` (30_encoding.md R62). -/
def nameChunk : List Char := ['C', 'H', 'U', 'N', 'K']

/-- The mnemonic or pseudo-mnemonic `CRC32` (30_encoding.md R62). -/
def nameCrc32 : List Char := ['C', 'R', 'C', '3', '2']

/-- A mnemonic that takes no operand. -/
def plainLine (i : Instr) : List Token → Option (List Instr)
  | [] => some [i]
  | _ => none

/-- A mnemonic that takes one data byte. -/
def byteLine (mk : Byte → Instr) : List Token → Option (List Instr)
  | [t] => (byteOperand t).map (fun d => [mk d])
  | _ => none

/-- `CHUNK_START tag, n`. -/
def startLine : List Token → Option (List Instr)
  | [t, .comma, n] =>
    match tagOperand t, lengthOperand n with
    | some tag, some len => some [.chunkStart tag len]
    | _, _ => none
  | _ => none

/-- `CHUNK tag, d0 d1 ...`, with the comma left out or kept when there is no data byte (30_encoding.md R62). R62 does not
say what more than 2^32 - 1 data bytes expand to, a length that no CHUNK_START can declare: such a line reads as no answer,
as R60 has the host refuse such a payload before any command (DESIGN CHOICE, log entry 10). -/
def chunkLine : List Token → Option (List Instr)
  | [t] => (tagOperand t).map (fun tag => chunkCommands tag [])
  | t :: .comma :: ts =>
    match tagOperand t, byteOperands ts with
    | some tag, some ds => if payloadFits ds then some (chunkCommands tag ds) else none
    | _, _ => none
  | _ => none

/-- The commands of the tokens of a line. -/
def assembleTokens : List Token → Option (List Instr)
  | [] => some []
  | .word m :: ts =>
    if m = nameReset then plainLine .reset ts
    else if m = nameStatus then plainLine .status ts
    else if m = nameCrcInit then plainLine .crcInit ts
    else if m = nameCrcByte then byteLine .crcByte ts
    else if m = nameCrcRead then plainLine .crcRead ts
    else if m = nameChunkStart then startLine ts
    else if m = nameChunkData then byteLine .chunkData ts
    else if m = nameChunk then chunkLine ts
    else if m = nameCrc32 then (byteOperands ts).map crc32Commands
    else none
  | _ => none

/-- The commands of one line: one for a command, the expansion for a pseudo-command, none for a blank or comment line
(30_encoding.md R61, R62); no answer for a line that is none of these. -/
def assembleLine (line : List Char) : Option (List Instr) := (lexLine [] false line).bind assembleTokens

/-- The commands of a text, one line after the other. -/
def assemble : List (List Char) → Option (List Instr)
  | [] => some []
  | l :: ls =>
    match assembleLine l, assemble ls with
    | some is, some js => some (is ++ js)
    | _, _ => none

/-- A hexadecimal digit in capitals. -/
def hexChar (v : BitVec 4) : Char := if v.toNat < 10 then Char.ofNat (48 + v.toNat) else Char.ofNat (55 + v.toNat)

/-- The two digits of a byte. -/
def hexOfByte (d : Byte) : List Char := [hexChar (d.extractLsb' 4 4), hexChar (d.extractLsb' 0 4)]

/-- The eight digits of a 32-bit word. -/
def hexOfWord (v : Word) : List Char := (be32 v).flatMap hexOfByte

/-- The text of a command, its numbers in hexadecimal (30_encoding.md R61). -/
def showInstr : Instr → List Char
  | .reset => nameReset
  | .status => nameStatus
  | .crcInit => nameCrcInit
  | .crcByte d => nameCrcByte ++ [' ', '0', 'x'] ++ hexOfByte d
  | .crcRead => nameCrcRead
  | .chunkStart tag n => nameChunkStart ++ [' ', '0', 'x'] ++ hexOfWord (fieldOfTag tag) ++ [',', ' ', '0', 'x'] ++ hexOfWord n
  | .chunkData d => nameChunkData ++ [' ', '0', 'x'] ++ hexOfByte d

/-- A command word as 18 hexadecimal digits in three groups, `op a b` (30_encoding.md R61). -/
def showWord (w : CmdWord) : List Char :=
  hexOfByte (opField w) ++ [' '] ++ hexOfWord (aField w) ++ [' '] ++ hexOfWord (bField w)

end Sys2Proof.Machine
end

