-- ==== Sys2Proof/Safety.lean ====
section
/-! DEFINITION. What counts as a safe run, in the terms claims use: the invariant of reachable states (10_state.md R20),
the checks of a command word in their order (30_encoding.md R56), the end of a run (43_host_sequences.md R144), and the
shape of the output stream. -/

namespace Sys2Proof.Machine

/-- The invariant of 10_state.md R20 (b) to (e); (a) holds by the type of PHASE and (f) speaks of a step. -/
abbrev State.Inv (s : State) : Prop :=
  (s.phase = .payload → s.rem ≠ 0#32) ∧ (s.phase = .idle → s.rem = 0#32) ∧
    (s.phase = .fault ↔ s.err ≠ 0#4) ∧ s.err ≤ 3#4

/-- The reserved bits of a defined opcode are zero (30_encoding.md R57). -/
def reservedClear (w : CmdWord) : Bool :=
  if opField w = 0x20#8 then true
  else if opField w = 0x11#8 ∨ opField w = 0x21#8 then decide (aField w = 0#32 ∧ reservedHigh (bField w) = 0#24)
  else decide (aField w = 0#32 ∧ bField w = 0#32)

/-- The fault, if any, that 30_encoding.md R56 gives a command word in a phase: the first failing check of the five, in
the order of 60_exceptions.md R157. Written from the fields of the word alone. -/
def expectedFault (w : CmdWord) (p : Phase) : Option FaultCode :=
  if opField w ∉ [0x01#8, 0x02#8, 0x10#8, 0x11#8, 0x12#8, 0x20#8, 0x21#8] then some .eOpcode
  else if reservedClear w = false then some .eOpcode
  else if p = .fault ∧ opField w ≠ 0x01#8 ∧ opField w ≠ 0x02#8 then some .eHalted
  else if p = .payload ∧ opField w ∈ [0x10#8, 0x11#8, 0x12#8, 0x20#8] then some .eState
  else if p = .idle ∧ opField w = 0x21#8 then some .eState
  else if opField w = 0x20#8 ∧ ∃ b ∈ be32 (aField w), 0x7F#8 < b then some .eTag
  else none

/-- `k` steps of the machine. -/
def run (k : Nat) (s : State) : Host.Outcome State Fault Refusal := Host.Core.run Sys2Proof.core k s

/-- The code of the last response given, if one has been given. -/
def lastCode (s : State) : Option (BitVec 4) := s.responses.getLast?.map respCode

/-- The responses of the first `k + 1` commands of a chunk of `n` payload bytes: code 0 and the values n, n-1, ...
(41_chunk.md R109). -/
def chunkResponses (n k : Nat) : List RespWord :=
  (List.range (k + 1)).map (fun j => respWord 0#4 (BitVec.ofNat 32 (n - j)))

/-- The state in which a run begins: after a power-on reset or a RESET (43_host_sequences.md R144, 10_state.md R23). -/
abbrev State.AtRunStart (s : State) : Prop :=
  s.phase = .idle ∧ s.err = 0#4 ∧ s.crc = Config.seed ∧ s.rem = 0#32

/-- The responses given since a run began. -/
def runResponses (start s : State) : List RespWord := s.responses.drop start.responses.length

/-- A run is complete (43_host_sequences.md R144). -/
def runComplete (start s : State) : Bool :=
  decide (s.phase = .idle) && decide (s.err = 0#4) &&
    (runResponses start s).all (fun r => decide (respCode r = 0#4))

/-- What the end of a run is called (43_host_sequences.md R144). A run that ends in IDLE with a refused command in it is
not complete and is counted as failed (DESIGN CHOICE, log entry 14). -/
inductive Verdict where
  | complete
  | incomplete
  | failed
  deriving DecidableEq, Repr

/-- The verdict on a run (43_host_sequences.md R144). -/
def runVerdict (start s : State) : Verdict :=
  if runComplete start s then .complete
  else match s.phase with
    | .payload => .incomplete
    | .idle | .fault => .failed

/-- A stretch of the output stream: a whole chunk, or the bytes of a chunk that was opened and lost by a fault or a RESET
(42_system.md R120, 60_exceptions.md R158). -/
inductive Segment where
  | whole (tag : Tag) (payload : List Byte)
  | orphan (tag : Tag) (n : Word) (sent : List Byte)
  deriving DecidableEq, Repr

/-- The bytes in OUT of a chunk still open: length, tag, payload so far (41_chunk.md R109). -/
def openBytes (tag : Tag) (n : Word) (sent : List Byte) : List Byte := be32 n ++ tagBytes tag ++ sent

/-- The bytes of a segment. -/
def Segment.bytes : Segment → List Byte
  | .whole tag payload => makeChunk tag payload
  | .orphan tag n sent => openBytes tag n sent

/-- The tag of a segment is well-formed, a whole payload fits the length field, an orphan lacks payload bytes. -/
def Segment.sound : Segment → Bool
  | .whole tag payload => tag.wellFormed && payloadFits payload
  | .orphan tag n sent => tag.wellFormed && decide (sent.length < n.toNat)

/-- The bytes of segments one after the other, with nothing between them (20_memory.md R36). -/
def segmentsBytes (segs : List Segment) : List Byte := segs.flatMap Segment.bytes

/-- OUT is made of sound segments and, in PAYLOAD, of the open chunk whose remainder CRC holds and whose missing bytes REM
counts (41_chunk.md R109, 20_memory.md R36, 42_system.md R120). -/
def State.Framed (s : State) : Prop :=
  ∃ segs : List Segment, (∀ g ∈ segs, g.sound = true) ∧
    match s.phase with
    | .idle => s.out = segmentsBytes segs
    | .fault => s.out = segmentsBytes segs
    | .payload => ∃ tag n sent, Tag.wellFormed tag = true ∧ s.rem ≠ 0#32 ∧ sent.length + s.rem.toNat = n.toNat ∧
        s.crc = crcBytes Config.seed (tagBytes tag ++ sent) ∧ s.out = segmentsBytes segs ++ openBytes tag n sent

end Sys2Proof.Machine
end

