-- ==== Sys2Proof/Certificates/Slice0/Obligations.lean ====
section
/-! DEFINITION. The statements for the provers. Each docstring names the rule of spec/ it formalises. Rules the spec marks
"[decision: ...]" are the spec's own choices and its only definition of the point; rules it marks "[derived: ...]" or
"[from general knowledge, not in source]" are its own inferences, and a statement on one has basis 'derived'. No statement
rests on a free value: the model has none. `acceptWord w s` is the spec's `step(S, w)`; the answer of a command is the
response word it adds to `responses` (log entry 4). -/

open Sys2Proof Sys2Proof.Machine

/-! ## The commands: what each does, where it completes, where it is refused -/

/-- 42_system.md R120. RESET completes in every phase and is the only command word after which the block has left FAULT;
a malformed RESET is refused. -/
def Obligations.ResetRestoresRegisters : Prop :=
  encode .reset = 0x010000000000000000#72 ∧
  (∀ s : State, exec .reset s =
    .next { s with phase := .idle, err := 0#4, crc := 0xFFFFFFFF#32, rem := 0#32,
                   responses := s.responses ++ [respWord 0#4 0#32] }) ∧
  (∀ (s t : State) (w : CmdWord), s.phase = .fault → acceptWord w s = .next t → t.phase ≠ .fault →
    w = 0x010000000000000000#72) ∧
  (∀ (s : State) (a b : Word), (a ≠ 0#32 ∨ b ≠ 0#32) →
    acceptWord (cmdWord 0x01#8 a b) s = .next (raiseFault .eOpcode s))

/-- 42_system.md R121. STATUS completes in every phase, changes nothing but the record of responses, and answers with PHASE
in bits 1:0, ERR in bits 7:4 and zero elsewhere; in states that meet the invariant of 10_state.md R20 the values are the
five the rule lists, and each of them occurs. -/
def Obligations.StatusAnswersPhaseAndErr : Prop :=
  encode .status = 0x020000000000000000#72 ∧
  (∀ s : State, ∃ v : Word,
    exec .status s = .next { s with responses := s.responses ++ [respWord 0#4 v] } ∧
    v.extractLsb' 0 2 = (match s.phase with | .idle => 0#2 | .payload => 1#2 | .fault => 2#2) ∧
    v.extractLsb' 2 2 = 0#2 ∧ v.extractLsb' 4 4 = s.err ∧ v.extractLsb' 8 24 = 0#24 ∧
    (s.Inv → v ∈ [0x00#32, 0x01#32, 0x12#32, 0x22#32, 0x32#32])) ∧
  (∀ v ∈ [0x00#32, 0x01#32, 0x12#32, 0x22#32, 0x32#32], ∃ s : State, s.Inv ∧
    exec .status s = .next { s with responses := s.responses ++ [respWord 0#4 v] }) ∧
  (∀ (s : State) (a b : Word), (a ≠ 0#32 ∨ b ≠ 0#32) →
    acceptWord (cmdWord 0x02#8 a b) s = .next (raiseFault .eOpcode s))

/-- 40_crc.md R86. CRC_INIT completes in IDLE; E_STATE in PAYLOAD, E_HALTED in FAULT, E_OPCODE with a reserved bit set;
done twice it leaves the register it left once. -/
def Obligations.CrcInitLoadsSeed : Prop :=
  encode .crcInit = 0x100000000000000000#72 ∧
  (∀ s : State, s.phase = .idle → exec .crcInit s =
    .next { s with crc := 0xFFFFFFFF#32, responses := s.responses ++ [respWord 0#4 0#32] }) ∧
  (∀ s t u : State, s.phase = .idle → exec .crcInit s = .next t → exec .crcInit t = .next u → u.crc = t.crc) ∧
  (∀ s : State, s.phase = .payload → exec .crcInit s =
    .next { s with phase := .fault, err := 2#4, responses := s.responses ++ [respWord 2#4 0#32] }) ∧
  (∀ s : State, s.phase = .fault → exec .crcInit s =
    .next { s with responses := s.responses ++ [respWord 4#4 0#32] }) ∧
  (∀ (s : State) (a b : Word), (a ≠ 0#32 ∨ b ≠ 0#32) →
    acceptWord (cmdWord 0x10#8 a b) s = .next (raiseFault .eOpcode s))

/-- 40_crc.md R87. CRC_BYTE d completes in IDLE and folds d into whatever CRC holds; E_STATE in PAYLOAD, E_HALTED in FAULT,
E_OPCODE with a reserved bit set; and the values the rule gives. -/
def Obligations.CrcByteFoldsByte : Prop :=
  (∀ d : Byte, encode (.crcByte d) = 0x110000000000000000#72 ||| d.setWidth 72) ∧
  (∀ (d : Byte) (s : State), s.phase = .idle → exec (.crcByte d) s =
    .next { s with crc := crcUpdate s.crc d, responses := s.responses ++ [respWord 0#4 0#32] }) ∧
  (∀ (d : Byte) (s : State), s.phase = .payload → exec (.crcByte d) s =
    .next { s with phase := .fault, err := 2#4, responses := s.responses ++ [respWord 2#4 0#32] }) ∧
  (∀ (d : Byte) (s : State), s.phase = .fault → exec (.crcByte d) s =
    .next { s with responses := s.responses ++ [respWord 4#4 0#32] }) ∧
  (∀ (s : State) (a b : Word), (a ≠ 0#32 ∨ b.extractLsb' 8 24 ≠ 0#24) →
    acceptWord (cmdWord 0x11#8 a b) s = .next (raiseFault .eOpcode s)) ∧
  crcUpdate 0xFFFFFFFF#32 0x00#8 = 0x2DFD1072#32 ∧ crcUpdate 0xFFFFFFFF#32 0xFF#8 = 0x00FFFFFF#32 ∧
  crcUpdate 0#32 0x00#8 = 0#32 ∧ crcUpdate 0xFFFFFFFF#32 0x49#8 = 0x22FDE946#32

/-- 40_crc.md R88. CRC_READ completes in IDLE, answers with the complement of CRC and changes nothing but the record of
responses; E_STATE in PAYLOAD, E_HALTED in FAULT, E_OPCODE with a reserved bit set; and the values the rule gives (that a
chunk's trailer is read back is `ChunkTrailerIsReadBack`). -/
def Obligations.CrcReadAnswersComplement : Prop :=
  encode .crcRead = 0x120000000000000000#72 ∧
  (∀ s : State, s.phase = .idle → exec .crcRead s =
    .next { s with responses := s.responses ++ [respWord 0#4 (s.crc ^^^ 0xFFFFFFFF#32)] }) ∧
  (∀ s : State, s.phase = .payload → exec .crcRead s =
    .next { s with phase := .fault, err := 2#4, responses := s.responses ++ [respWord 2#4 0#32] }) ∧
  (∀ s : State, s.phase = .fault → exec .crcRead s =
    .next { s with responses := s.responses ++ [respWord 4#4 0#32] }) ∧
  (∀ (s : State) (a b : Word), (a ≠ 0#32 ∨ b ≠ 0#32) →
    acceptWord (cmdWord 0x12#8 a b) s = .next (raiseFault .eOpcode s)) ∧
  (∀ s : State, s.phase = .idle → s.crc = 0xFFFFFFFF#32 → exec .crcRead s =
    .next { s with responses := s.responses ++ [respWord 0#4 0#32] }) ∧
  (∀ s : State, s.phase = .idle → s.crc = 0x51BD9F7D#32 → exec .crcRead s =
    .next { s with responses := s.responses ++ [respWord 0#4 0xAE426082#32] })

/-- 41_chunk.md R104. CHUNK_START tag, n completes in IDLE with a well-formed tag: 12 bytes and IDLE when n = 0, 8 bytes and
PAYLOAD otherwise; E_HALTED in FAULT, E_STATE in PAYLOAD, E_TAG in IDLE when a tag byte is above 0x7F; and the example of
the rule. -/
def Obligations.ChunkStartOpensChunk : Prop :=
  (∀ (tag : Tag) (n : Word), encode (.chunkStart tag n) = 0x20#8 ++ (tag.b0 ++ tag.b1 ++ tag.b2 ++ tag.b3 ++ n)) ∧
  (∀ (tag : Tag) (s : State), s.phase = .idle →
    tag.b0 ≤ 0x7F#8 → tag.b1 ≤ 0x7F#8 → tag.b2 ≤ 0x7F#8 → tag.b3 ≤ 0x7F#8 →
    exec (.chunkStart tag 0#32) s =
      .next { s with
        crc := crcBytes 0xFFFFFFFF#32 [tag.b0, tag.b1, tag.b2, tag.b3], rem := 0#32,
        out := s.out ++ be32 0#32 ++ [tag.b0, tag.b1, tag.b2, tag.b3] ++
          be32 (crcBytes 0xFFFFFFFF#32 [tag.b0, tag.b1, tag.b2, tag.b3] ^^^ 0xFFFFFFFF#32),
        responses := s.responses ++ [respWord 0#4 0#32] }) ∧
  (∀ (tag : Tag) (n : Word) (s : State), s.phase = .idle → n ≠ 0#32 →
    tag.b0 ≤ 0x7F#8 → tag.b1 ≤ 0x7F#8 → tag.b2 ≤ 0x7F#8 → tag.b3 ≤ 0x7F#8 →
    exec (.chunkStart tag n) s =
      .next { s with
        crc := crcBytes 0xFFFFFFFF#32 [tag.b0, tag.b1, tag.b2, tag.b3], rem := n, phase := .payload,
        out := s.out ++ be32 n ++ [tag.b0, tag.b1, tag.b2, tag.b3],
        responses := s.responses ++ [respWord 0#4 n] }) ∧
  (∀ (tag : Tag) (n : Word) (s : State), s.phase = .idle →
    (0x7F#8 < tag.b0 ∨ 0x7F#8 < tag.b1 ∨ 0x7F#8 < tag.b2 ∨ 0x7F#8 < tag.b3) →
    exec (.chunkStart tag n) s =
      .next { s with phase := .fault, err := 3#4, responses := s.responses ++ [respWord 3#4 0#32] }) ∧
  (∀ (tag : Tag) (n : Word) (s : State), s.phase = .payload → exec (.chunkStart tag n) s =
    .next { s with phase := .fault, err := 2#4, responses := s.responses ++ [respWord 2#4 0#32] }) ∧
  (∀ (tag : Tag) (n : Word) (s : State), s.phase = .fault → exec (.chunkStart tag n) s =
    .next { s with responses := s.responses ++ [respWord 4#4 0#32] }) ∧
  exec (.chunkStart tagIEND 0#32) State.reset =
    .next { State.reset with
      crc := 0x51BD9F7D#32,
      out := [0x00#8, 0x00#8, 0x00#8, 0x00#8, 0x49#8, 0x45#8, 0x4E#8, 0x44#8, 0xAE#8, 0x42#8, 0x60#8, 0x82#8],
      responses := [respWord 0#4 0#32] }

/-- 41_chunk.md R108. CHUNK_DATA d completes in PAYLOAD: one byte out while more are owed, the byte and the trailer and IDLE
when it is the last; E_STATE in IDLE, E_HALTED in FAULT, E_OPCODE with a reserved bit set. The premise that REM is not 0 is
the part of the invariant of 10_state.md R20 that `StepKeepsStateInvariant` states. The last clause is the rule's example. -/
def Obligations.ChunkDataSuppliesByte : Prop :=
  (∀ d : Byte, encode (.chunkData d) = 0x210000000000000000#72 ||| d.setWidth 72) ∧
  (∀ (d : Byte) (s : State), s.phase = .payload → s.rem ≠ 0#32 → s.rem ≠ 1#32 →
    exec (.chunkData d) s =
      .next { s with
        crc := crcUpdate s.crc d, rem := s.rem - 1#32, out := s.out ++ [d],
        responses := s.responses ++ [respWord 0#4 (s.rem - 1#32)] }) ∧
  (∀ (d : Byte) (s : State), s.phase = .payload → s.rem = 1#32 →
    exec (.chunkData d) s =
      .next { s with
        crc := crcUpdate s.crc d, rem := 0#32, phase := .idle,
        out := s.out ++ [d] ++ be32 (crcUpdate s.crc d ^^^ 0xFFFFFFFF#32),
        responses := s.responses ++ [respWord 0#4 0#32] }) ∧
  (∀ (d : Byte) (s : State), s.phase = .idle → exec (.chunkData d) s =
    .next { s with phase := .fault, err := 2#4, responses := s.responses ++ [respWord 2#4 0#32] }) ∧
  (∀ (d : Byte) (s : State), s.phase = .fault → exec (.chunkData d) s =
    .next { s with responses := s.responses ++ [respWord 4#4 0#32] }) ∧
  (∀ (s : State) (a b : Word), (a ≠ 0#32 ∨ b.extractLsb' 8 24 ≠ 0#24) →
    acceptWord (cmdWord 0x21#8 a b) s = .next (raiseFault .eOpcode s)) ∧
  (∀ s : State, s.phase = .payload → s.crc = 0xCA50F9E1#32 → s.rem = 3#32 →
    ∃ t u v : State, exec (.chunkData 0x01#8) s = .next t ∧ exec (.chunkData 0x02#8) t = .next u ∧
      exec (.chunkData 0x03#8) u = .next v ∧
      t.crc = 0xA0C0B281#32 ∧ t.rem = 2#32 ∧ t.phase = .payload ∧ t.out = s.out ++ [0x01#8] ∧
      u.crc = 0x74111228#32 ∧ u.rem = 1#32 ∧ u.phase = .payload ∧ u.out = t.out ++ [0x02#8] ∧
      v.crc = 0xACC8E852#32 ∧ v.rem = 0#32 ∧ v.phase = .idle ∧
      v.out = u.out ++ [0x03#8, 0x53#8, 0x37#8, 0x17#8, 0xAD#8] ∧
      v.responses = s.responses ++ [respWord 0#4 2#32, respWord 0#4 1#32, respWord 0#4 0#32])

/-! ## The frame -/

/-- Rests on 10_state.md section 11 (the access table). Whatever a command does, the port is left alone, one response is
added, and each element changes only under the commands the table lets write it; every byte already in OUT reads as
before. -/
def Obligations.CommandsWriteOnlyTheirElements : Prop :=
  ∀ (i : Instr) (s t : State), exec i s = .next t →
    t.port = s.port ∧ (∃ r, t.responses = s.responses ++ [r]) ∧
    (∀ p, p < s.out.length → t.out[p]? = s.out[p]?) ∧
    (t.crc ≠ s.crc → lastCode t = some 0#4 ∧ (i = .reset ∨ i = .crcInit ∨ (∃ d, i = .crcByte d) ∨
      (∃ tag n, i = .chunkStart tag n) ∨ ∃ d, i = .chunkData d)) ∧
    (t.rem ≠ s.rem → lastCode t = some 0#4 ∧ (i = .reset ∨ (∃ tag n, i = .chunkStart tag n) ∨ ∃ d, i = .chunkData d)) ∧
    (t.phase ≠ s.phase → (lastCode t ≠ some 0#4 ∧ t.phase = .fault) ∨
      (lastCode t = some 0#4 ∧ (i = .reset ∨ (∃ tag n, i = .chunkStart tag n) ∨ ∃ d, i = .chunkData d))) ∧
    (t.err ≠ s.err → (lastCode t ≠ some 0#4 ∧ s.phase ≠ .fault) ∨ i = .reset) ∧
    (t.out ≠ s.out → lastCode t = some 0#4 ∧ ((∃ tag n, i = .chunkStart tag n) ∨ ∃ d, i = .chunkData d))

/-- 10_state.md R14. OUT is empty at power-on reset; a command word only appends to it; the bytes it appends, and everything
else it does, do not depend on what OUT holds; RESET leaves it. -/
def Obligations.OutIsAppendOnlyAndNeverRead : Prop :=
  State.reset.out = [] ∧
  (∀ (s : State) (w : CmdWord), ∃ (t : State) (bs : List Byte), t.out = s.out ++ bs ∧
    ∀ o : List Byte, acceptWord w { s with out := o } = .next { t with out := o ++ bs }) ∧
  (∀ s t : State, exec .reset s = .next t → t.out = s.out)

/-- Rests on 20_memory.md section 4 (R37). The number of bytes each performed command emits; a refused one emits none. The
premise on REM is part of the invariant of 10_state.md R20. -/
def Obligations.EmittedByteCounts : Prop :=
  ∀ (i : Instr) (s t : State), exec i s = .next t → (s.phase = .payload → s.rem ≠ 0#32) →
    t.out.length = s.out.length +
      (if lastCode t = some 0#4 then
        match i with
        | .chunkStart _ n => if n = 0#32 then 12 else 8
        | .chunkData _ => if s.rem = 1#32 then 5 else 1
        | .reset | .status | .crcInit | .crcByte _ | .crcRead => 0
      else 0)

/-! ## Command words and steps -/

/-- Rests on 00_scope.md section 7, 30_encoding.md section 6, 60_exceptions.md section 9, 70_reset_and_hazards.md section 1,
and on log entries 1 to 3 (the port and what a step does with it). A step on a presented word is `acceptWord` on the state
that has taken it, which runs the decoded command, or for a word that does not decode enters the fault E_OPCODE; with
nothing presented the state is held; a power-on reset gives the reset state, what is still presented kept. -/
def Obligations.StepRunsDecodedCommand : Prop :=
  (∀ (s : State) (w : CmdWord) (rest : List Event), s.port = .command w :: rest →
    step s = acceptWord w { s with port := rest }) ∧
  (∀ (s : State) (w : CmdWord) (rest : List Event) (i : Instr), s.port = .command w :: rest → decode w = .ok i →
    step s = exec i { s with port := rest }) ∧
  (∀ (s : State) (w : CmdWord) (rest : List Event) (e : DecodeError), s.port = .command w :: rest →
    decode w = .error e → step s = .next (raiseFault .eOpcode { s with port := rest })) ∧
  (∀ s : State, s.port = [] → step s = .next s) ∧
  (∀ (s : State) (rest : List Event), s.port = .powerOn :: rest → step s = .next { State.reset with port := rest })

/-- 30_encoding.md R56. The first failing check, written from the fields of the word and the phase (`expectedFault`), decides
the fault; where none fails the word decodes and its command is performed, with code 0. -/
def Obligations.FirstFailingCheckDecidesFault : Prop :=
  ∀ (s : State) (w : CmdWord),
    (∀ c, expectedFault w s.phase = some c → acceptWord w s = .next (raiseFault c s)) ∧
    (expectedFault w s.phase = none → ∃ i t, decode w = .ok i ∧ acceptWord w s = .next t ∧ exec i s = .next t ∧
      lastCode t = some 0#4)

/-- 30_encoding.md R53. One response word for each command word: a refused command answers its fault code and val 0, an
accepted one code 0 and the value of the rule's table. -/
def Obligations.OneResponsePerCommandWord : Prop :=
  ∀ (s : State) (w : CmdWord),
    ∃ (t : State) (r : RespWord), acceptWord w s = .next t ∧ t.responses = s.responses ++ [r] ∧
      (r.extractLsb' 32 4 ≠ 0#4 → r.extractLsb' 0 32 = 0#32 ∧
        ∃ c, r.extractLsb' 32 4 = faultCode c ∧ t = raiseFault c s) ∧
      (r.extractLsb' 32 4 = 0#4 → ∃ i, decode w = .ok i ∧
        match i with
        | .reset => r.extractLsb' 0 32 = 0#32
        | .status => r.extractLsb' 0 32 = statusWord s
        | .crcInit => r.extractLsb' 0 32 = 0#32
        | .crcByte _ => r.extractLsb' 0 32 = 0#32
        | .crcRead => r.extractLsb' 0 32 = s.crc ^^^ 0xFFFFFFFF#32
        | .chunkStart _ n => r.extractLsb' 0 32 = t.rem ∧ t.rem = n
        | .chunkData _ => r.extractLsb' 0 32 = t.rem)

/-- Rests on 30_encoding.md section 7 (R58) and 70_reset_and_hazards.md section 4 (R192). No state stops the machine: every
step answers a next state, whatever the port presents. -/
def Obligations.EveryStepAnswers : Prop := ∀ s : State, ∃ t : State, step s = .next t

/-! ## Encodings -/

/-- Rests on 30_encoding.md section 5 (the pattern strings of R55). Words written out from the patterns decode to the command
they stand for, and three words that are no command are rejected by name. -/
def Obligations.WrittenWordsDecode : Prop :=
  decode 0x010000000000000000#72 = .ok .reset ∧
  decode 0x020000000000000000#72 = .ok .status ∧
  decode 0x100000000000000000#72 = .ok .crcInit ∧
  decode 0x110000000000000031#72 = .ok (.crcByte 0x31#8) ∧
  decode 0x120000000000000000#72 = .ok .crcRead ∧
  decode 0x2049484452DEADBEEF#72 = .ok (.chunkStart ⟨0x49#8, 0x48#8, 0x44#8, 0x52#8⟩ 0xDEADBEEF#32) ∧
  decode 0x2100000000000000AA#72 = .ok (.chunkData 0xAA#8) ∧
  decode 0x000000000000000000#72 = .error .undefinedOpcode ∧
  decode 0x220000000000000000#72 = .error .undefinedOpcode ∧
  decode 0x110000000000000100#72 = .error .reservedBits

/-- Rests on 30_encoding.md sections 2 and 5. Decoding the word of any command, with every operand at every value, gives the
command back: no bit of an encoding is dropped. -/
def Obligations.DecodeAfterEncodeIsIdentity : Prop := ∀ i : Instr, decode (encode i) = .ok i

/-- Rests on 30_encoding.md sections 5 and 7. A word that decodes is the word of the command it decodes to: each command has
one word. -/
def Obligations.EncodeAfterDecodeIsIdentity : Prop := ∀ (w : CmdWord) (i : Instr), decode w = .ok i → encode i = w

/-- 30_encoding.md R55. The rows of the opcode map, and: a word decodes to a command of a row exactly when it has the row's
pattern under the row's mask, its operands then being the fields the row names; every other word decodes to nothing. -/
def Obligations.WordMatchesRowExactlyWhenCommand : Prop :=
  opcodeMap =
    [⟨0xFFFFFFFFFFFFFFFFFF#72, 0x010000000000000000#72⟩, ⟨0xFFFFFFFFFFFFFFFFFF#72, 0x020000000000000000#72⟩,
      ⟨0xFFFFFFFFFFFFFFFFFF#72, 0x100000000000000000#72⟩, ⟨0xFFFFFFFFFFFFFFFF00#72, 0x110000000000000000#72⟩,
      ⟨0xFFFFFFFFFFFFFFFFFF#72, 0x120000000000000000#72⟩, ⟨0xFF0000000000000000#72, 0x200000000000000000#72⟩,
      ⟨0xFFFFFFFFFFFFFFFF00#72, 0x210000000000000000#72⟩] ∧
  (∀ (w : CmdWord) (row : OpcodeRow), row ∈ opcodeMap →
    (w &&& row.mask = row.pattern ↔ ∃ i, decode w = .ok i ∧ i.row = row)) ∧
  (∀ (w : CmdWord) (i : Instr), decode w = .ok i → i.row ∈ opcodeMap ∧
    match i with
    | .reset => opField w = 0x01#8
    | .status => opField w = 0x02#8
    | .crcInit => opField w = 0x10#8
    | .crcByte d => opField w = 0x11#8 ∧ d = (bField w).extractLsb' 0 8
    | .crcRead => opField w = 0x12#8
    | .chunkStart tag n => opField w = 0x20#8 ∧ [tag.b0, tag.b1, tag.b2, tag.b3] = be32 (aField w) ∧ n = bField w
    | .chunkData d => opField w = 0x21#8 ∧ d = (bField w).extractLsb' 0 8)

/-- 60_exceptions.md R151. E_OPCODE is raised, in any phase, exactly by the words with an undefined opcode or with a reserved
bit of their opcode set. -/
def Obligations.OpcodeFaultRaisedExactly : Prop :=
  ∀ (s t : State) (w : CmdWord), acceptWord w s = .next t →
    (lastCode t = some 1#4 ↔
      (opField w ∉ [0x01#8, 0x02#8, 0x10#8, 0x11#8, 0x12#8, 0x20#8, 0x21#8] ∨
        (opField w ∈ [0x01#8, 0x02#8, 0x10#8, 0x12#8] ∧ (aField w ≠ 0#32 ∨ bField w ≠ 0#32)) ∨
        (opField w ∈ [0x11#8, 0x21#8] ∧ (aField w ≠ 0#32 ∨ (bField w).extractLsb' 8 24 ≠ 0#24))))

/-! ## Faults -/

/-- 60_exceptions.md R155. Fault entry: nothing emitted, CRC and REM kept; from outside FAULT it writes ERR and PHASE, in FAULT
it changes nothing; the response is the code and val 0. The codes are those of R150. -/
def Obligations.FaultEntryDoesExactlyThis : Prop :=
  faultCode .eOpcode = 1#4 ∧ faultCode .eState = 2#4 ∧ faultCode .eTag = 3#4 ∧ faultCode .eHalted = 4#4 ∧
  (∀ (c : FaultCode) (s : State), s.phase ≠ .fault → raiseFault c s =
    { s with err := faultCode c, phase := .fault, responses := s.responses ++ [respWord (faultCode c) 0#32] }) ∧
  (∀ (c : FaultCode) (s : State), s.phase = .fault → raiseFault c s =
    { s with responses := s.responses ++ [respWord (faultCode c) 0#32] })

/-- 60_exceptions.md R152, R153, R154. For a well-formed command: which commands raise E_STATE, E_TAG and E_HALTED, and in
which phase; E_HALTED changes nothing. -/
def Obligations.PhaseAndTagFaultsRaisedExactly : Prop :=
  ∀ (i : Instr) (s t : State), exec i s = .next t →
    (lastCode t = some 2#4 ↔
      (s.phase = .payload ∧ (i = .crcInit ∨ (∃ d, i = .crcByte d) ∨ i = .crcRead ∨ ∃ tag n, i = .chunkStart tag n)) ∨
      (s.phase = .idle ∧ ∃ d, i = .chunkData d)) ∧
    (lastCode t = some 3#4 ↔
      s.phase = .idle ∧ ∃ tag n, i = .chunkStart tag n ∧
        (0x7F#8 < tag.b0 ∨ 0x7F#8 < tag.b1 ∨ 0x7F#8 < tag.b2 ∨ 0x7F#8 < tag.b3)) ∧
    (lastCode t = some 4#4 ↔ s.phase = .fault ∧ i ≠ .reset ∧ i ≠ .status) ∧
    (lastCode t = some 4#4 → t = { s with responses := s.responses ++ [respWord 4#4 0#32] })

/-- Rests on 60_exceptions.md section 2 (R155, R156). A refused command word has no effect other than fault entry. -/
def Obligations.RefusedCommandIsPrecise : Prop :=
  ∀ (s t : State) (w : CmdWord) (rest : List Event), s.port = .command w :: rest → step s = .next t →
    lastCode t ≠ some 0#4 →
    t.crc = s.crc ∧ t.rem = s.rem ∧ t.out = s.out ∧ t.port = rest ∧ t.phase = .fault ∧
      (s.phase = .fault → t.err = s.err) ∧ (s.phase ≠ .fault → lastCode t = some t.err)

/-- 60_exceptions.md R159. In FAULT no command word but RESET changes PHASE, ERR, CRC, REM or OUT; a refused one answers the
code of its own first failing check; RESET clears the fault. -/
def Obligations.FaultIsStickyUntilReset : Prop :=
  (∀ (s t : State) (w : CmdWord), s.phase = .fault → w ≠ encode .reset → acceptWord w s = .next t →
    ∃ r, t = { s with responses := s.responses ++ [r] } ∧
      ∀ c, expectedFault w .fault = some c → r = respWord (faultCode c) 0#32) ∧
  (∀ s t : State, s.phase = .fault → acceptWord (encode .reset) s = .next t → t.phase = .idle ∧ t.err = 0#4)

/-! ## Reset and invariants -/

/-- 10_state.md R23. The values after a power-on reset, and after RESET the same but for OUT. -/
def Obligations.ResetValues : Prop :=
  State.reset.phase = .idle ∧ State.reset.err = 0#4 ∧ State.reset.crc = 0xFFFFFFFF#32 ∧ State.reset.rem = 0#32 ∧
  State.reset.out = [] ∧
  (∀ s t : State, exec .reset s = .next t →
    t.phase = State.reset.phase ∧ t.err = State.reset.err ∧ t.crc = State.reset.crc ∧ t.rem = State.reset.rem ∧
      t.out = s.out)

/-- Rests on 10_state.md section 8 (R20 b to f). Every step keeps the invariant, and every step that is not a power-on reset
leaves OUT a prefix of the OUT after it. -/
def Obligations.StepKeepsStateInvariant : Prop :=
  ∀ s t : State, s.Inv → step s = .next t →
    t.Inv ∧ ((∀ rest, s.port ≠ .powerOn :: rest) → s.out <+: t.out)

/-- Rests on 10_state.md sections 8 and 10 (R20, R23). The reset state meets the invariant. -/
def Obligations.ResetMeetsStateInvariant : Prop := State.reset.Inv

/-- Rests on 20_memory.md section 3 (R36), 41_chunk.md section 3 (R109), 42_system.md (R120). Every step, a refused command, a
RESET in the middle of a chunk and a power-on reset included, keeps OUT made of whole chunks, orphaned parts of chunks, and
in PAYLOAD the open chunk whose remainder is in CRC and whose missing bytes are counted in REM. -/
def Obligations.StepKeepsOutFramed : Prop := ∀ s t : State, s.Framed → step s = .next t → t.Framed

/-- Rests on 10_state.md section 10 (R23). The reset state's OUT is framed. -/
def Obligations.ResetIsFramed : Prop := State.reset.Framed

/-- Rests on 70_reset_and_hazards.md section 1 (R181) and 10_state.md R14. For any number of steps with no power-on reset
presented, bytes put in front of OUT change nothing but OUT, in which they stay in front. -/
def Obligations.EarlierOutputDoesNotInfluence : Prop :=
  ∀ (k : Nat) (s : State) (o : List Byte), Event.powerOn ∉ s.port →
    ∃ t : State, run k s = .next t ∧ run k { s with out := o ++ s.out } = .next { t with out := o ++ t.out }

/-- Rests on 10_state.md section 8 (R21). From two IDLE states, whatever CRC, REM, ERR and OUT hold, the command sequence of
one chunk appends the same bytes and leaves the same CRC and REM. -/
def Obligations.ChunkBytesIndependentOfPast : Prop :=
  ∀ (s u : State) (tag : Tag) (payload : List Byte), s.phase = .idle → u.phase = .idle →
    tag.wellFormed = true → payloadFits payload = true →
    s.port = commandEvents (chunkCommands tag payload) → u.port = commandEvents (chunkCommands tag payload) →
    ∃ (t v : State) (bs : List Byte), run (payload.length + 1) s = .next t ∧ run (payload.length + 1) u = .next v ∧
      t.out = s.out ++ bs ∧ v.out = u.out ++ bs ∧ t.crc = v.crc ∧ t.rem = v.rem

/-! ## Byte order and the CRC functions -/

/-- 20_memory.md R33. Big-endian serialisation of a 32-bit value, and its emission. -/
def Obligations.Be32IsMostSignificantFirst : Prop :=
  (∀ v : Word, be32 v = [v.extractLsb' 24 8, v.extractLsb' 16 8, v.extractLsb' 8 8, v.extractLsb' 0 8]) ∧
  (∀ (v : Word) (s : State), emitU32 v s =
    emit (v.extractLsb' 0 8) (emit (v.extractLsb' 8 8) (emit (v.extractLsb' 16 8) (emit (v.extractLsb' 24 8) s)))) ∧
  (∀ (v : Word) (s : State), (emitU32 v s).out = s.out ++ be32 v) ∧
  be32 13#32 = [0x00#8, 0x00#8, 0x00#8, 0x0D#8] ∧ be32 0xAE426082#32 = [0xAE#8, 0x42#8, 0x60#8, 0x82#8]

/-- 40_crc.md R82. `crc_update` written out: the byte XORed in, then eight shift steps, with the trace of the rule. -/
def Obligations.CrcUpdateIsEightShiftSteps : Prop :=
  (∀ (c : Word) (d : Byte), crcUpdate c d =
    (fun c : Word => if c.getLsbD 0 = true then (c >>> 1) ^^^ 0xEDB88320#32 else c >>> 1)^[8] (c ^^^ d.setWidth 32)) ∧
  (0xFFFFFFFF#32 ^^^ (0x49#8).setWidth 32 = 0xFFFFFFB6#32) ∧
  [1, 2, 3, 4, 5, 6, 7, 8].map (fun k => shiftSteps k 0xFFFFFFB6#32) =
    [0x7FFFFFDB#32, 0xD2477CCD#32, 0x849B3D46#32, 0x424D9EA3#32, 0xCC9E4C71#32, 0x8BF7A518#32, 0x45FBD28C#32,
      0x22FDE946#32] ∧
  crcUpdate 0xFFFFFFFF#32 0x49#8 = 0x22FDE946#32

/-- Rests on 40_crc.md section 2 (R83, which the spec marks as derived). `crc_bytes` folds first byte first, so a message may
be fed in any split. -/
def Obligations.CrcBytesMayBeSplit : Prop :=
  (∀ c : Word, crcBytes c [] = c) ∧
  (∀ (c : Word) (d : Byte) (t : List Byte), crcBytes c ([d] ++ t) = crcBytes (crcUpdate c d) t) ∧
  (∀ (c : Word) (s t : List Byte), crcBytes c (s ++ t) = crcBytes (crcBytes c s) t)

/-- 40_crc.md R84. `crc32` is the complement of the seed with the bytes folded in. -/
def Obligations.Crc32SeedsFoldsComplements : Prop :=
  (∀ s : List Byte, crc32 s = crcBytes 0xFFFFFFFF#32 s ^^^ 0xFFFFFFFF#32) ∧ crc32 [] = 0#32

/-- Rests on 40_crc.md section 2 (R85 a, marked there as from general knowledge). The table form computes `crc_update`. -/
def Obligations.TableFormAgrees : Prop := ∀ (c : Word) (d : Byte), crcUpdateByTable c d = crcUpdate c d

/-- Rests on 40_crc.md section 2 (R80, R81, R85 b, the last two marked there as from general knowledge). The form that
consumes the most significant bit first with the constant 0x04C11DB7 computes `crc32`, and 0xEDB88320 is that constant with
its bits reversed. -/
def Obligations.NormalFormAgrees : Prop :=
  rev32 0x04C11DB7#32 = 0xEDB88320#32 ∧
  (∀ (c : Word) (d : Byte), normalUpdate (rev32 c) d = rev32 (crcUpdate c d)) ∧
  (∀ s : List Byte, crc32Normal s = crc32 s)

/-- Rests on 40_crc.md section 4 (R89 a, b, c, marked as derived). `crc_update` is XOR-linear, the byte acts only through the
low byte of the register, and zero is a fixed point. -/
def Obligations.CrcUpdateIsLinear : Prop :=
  (∀ (c1 c2 : Word) (d1 d2 : Byte), crcUpdate (c1 ^^^ c2) (d1 ^^^ d2) = crcUpdate c1 d1 ^^^ crcUpdate c2 d2) ∧
  (∀ (c : Word) (d : Byte), crcUpdate c d = crcUpdate (c ^^^ d.setWidth 32) 0x00#8) ∧
  crcUpdate 0#32 0x00#8 = 0#32

/-- Rests on 40_crc.md section 4 (R89 d, marked as derived). For a fixed byte `crc_update` is a bijection, and two messages
of the same length that differ in exactly one byte have different CRCs. -/
def Obligations.OneByteDifferenceIsDetected : Prop :=
  (∀ d : Byte, Function.Bijective (fun c : Word => crcUpdate c d)) ∧
  (∀ (front back : List Byte) (d e : Byte), d ≠ e → crc32 (front ++ d :: back) ≠ crc32 (front ++ e :: back))

/-- Rests on 40_crc.md section 4 (R89 e, marked as derived). The CRC of the XOR of two messages of the same length. -/
def Obligations.Crc32OfXor : Prop :=
  ∀ s t : List Byte, s.length = t.length →
    crc32 (List.zipWith (· ^^^ ·) s t) = crc32 s ^^^ crc32 t ^^^ crc32 (List.replicate s.length 0x00#8)

/-! ## Chunks and command sequences -/

/-- 30_encoding.md R54, 41_chunk.md R100. The encoded form of a chunk, field by field at its offset, and its size. -/
def Obligations.ChunkWireLayout : Prop :=
  ∀ (tag : Tag) (payload : List Byte), payload.length ≤ 2 ^ 32 - 1 →
    makeChunk tag payload =
      be32 (BitVec.ofNat 32 payload.length) ++ [tag.b0, tag.b1, tag.b2, tag.b3] ++ payload ++
        be32 (crc32 ([tag.b0, tag.b1, tag.b2, tag.b3] ++ payload)) ∧
    (BitVec.ofNat 32 payload.length).toNat = payload.length ∧
    (makeChunk tag payload).length = 12 + payload.length ∧
    (makeChunk tag payload).take 4 = be32 (BitVec.ofNat 32 payload.length) ∧
    ((makeChunk tag payload).drop 4).take 4 = [tag.b0, tag.b1, tag.b2, tag.b3] ∧
    ((makeChunk tag payload).drop 8).take payload.length = payload ∧
    (makeChunk tag payload).drop (8 + payload.length) = be32 (crc32 ([tag.b0, tag.b1, tag.b2, tag.b3] ++ payload))

/-- Rests on 40_crc.md section 5 (R91, marked as derived). From any IDLE state CRC_INIT, CRC_BYTE for each byte, CRC_READ are
accepted in full, emit nothing, and the last response is `crc32`; with the seed in CRC the leading CRC_INIT may be left
out. -/
def Obligations.CrcCommandsComputeCrc32 : Prop :=
  (∀ (s : State) (bs : List Byte) (rest : List Event), s.phase = .idle →
    s.port = commandEvents (crc32Commands bs) ++ rest →
    run (bs.length + 2) s =
      .next { s with
        port := rest, crc := crcBytes 0xFFFFFFFF#32 bs,
        responses := s.responses ++ List.replicate (bs.length + 1) (respWord 0#4 0#32) ++ [respWord 0#4 (crc32 bs)] }) ∧
  (∀ (s : State) (bs : List Byte) (rest : List Event), s.phase = .idle → s.crc = 0xFFFFFFFF#32 →
    s.port = commandEvents (bs.map .crcByte ++ [.crcRead]) ++ rest →
    run (bs.length + 1) s =
      .next { s with
        port := rest, crc := crcBytes 0xFFFFFFFF#32 bs,
        responses := s.responses ++ List.replicate bs.length (respWord 0#4 0#32) ++ [respWord 0#4 (crc32 bs)] })

/-- Rests on 41_chunk.md section 3 (R109, marked as derived). From any IDLE state, CHUNK_START and one CHUNK_DATA for each
byte of a payload of at most 2^32 - 1 bytes are accepted in full and append exactly `make_chunk`; after the first k + 1
commands the chunk is open with k payload bytes in OUT. -/
def Obligations.ChunkCommandsComputeMakeChunk : Prop :=
  ∀ (s : State) (tag : Tag) (payload : List Byte) (rest : List Event), s.phase = .idle →
    tag.wellFormed = true → payload.length ≤ 2 ^ 32 - 1 →
    s.port = commandEvents (chunkCommands tag payload) ++ rest →
    run (payload.length + 1) s =
      .next { s with
        port := rest, rem := 0#32, crc := crcBytes 0xFFFFFFFF#32 (tagBytes tag ++ payload),
        out := s.out ++ makeChunk tag payload,
        responses := s.responses ++ chunkResponses payload.length payload.length } ∧
    ∀ k, k < payload.length →
      run (k + 1) s =
        .next { s with
          port := commandEvents ((payload.drop k).map .chunkData) ++ rest, phase := .payload,
          rem := BitVec.ofNat 32 (payload.length - k),
          crc := crcBytes 0xFFFFFFFF#32 (tagBytes tag ++ payload.take k),
          out := s.out ++ be32 (BitVec.ofNat 32 payload.length) ++ tagBytes tag ++ payload.take k,
          responses := s.responses ++ chunkResponses payload.length k }

/-- Rests on 41_chunk.md section 3 (R111) and 40_crc.md section 5 (R92). A CRC_READ after a chunk answers with the value of the
trailer just emitted. -/
def Obligations.ChunkTrailerIsReadBack : Prop :=
  ∀ (s : State) (tag : Tag) (payload : List Byte), s.phase = .idle → tag.wellFormed = true →
    payload.length ≤ 2 ^ 32 - 1 → s.port = commandEvents (chunkCommands tag payload ++ [.crcRead]) →
    ∃ t : State, run (payload.length + 2) s = .next t ∧
      ∃ v : Word, t.responses.getLast? = some (respWord 0#4 v) ∧
        t.out.drop (s.out.length + 8 + payload.length) = be32 v

/-- Rests on 43_host_sequences.md section 5 (R141) and 41_chunk.md section 1 (R101). A host that reads a chunk back finds its
tag, payload and trailer, and the recomputed CRC matches the trailer. -/
def Obligations.ReadBackChunkChecks : Prop :=
  ∀ (tag : Tag) (payload : List Byte), payload.length ≤ 2 ^ 32 - 1 →
    ∃ c : ReadChunk, readChunk (makeChunk tag payload) = some c ∧ c.tag = tag ∧ c.payload = payload ∧
      trailerMatches c (crc32 (tagBytes c.tag ++ c.payload)) = true

/-- Rests on 43_host_sequences.md section 7 (R144). A run of command words without a RESET in it that is complete has appended
whole chunks and nothing else. -/
def Obligations.CompleteRunIsWholeChunks : Prop :=
  ∀ (s t : State) (ws : List CmdWord) (rest : List Event), s.AtRunStart → s.port = ws.map .command ++ rest →
    encode .reset ∉ ws → run ws.length s = .next t → runComplete s t = true →
    ∃ chunks : List (Tag × List Byte),
      (∀ c ∈ chunks, c.1.wellFormed = true ∧ c.2.length ≤ 2 ^ 32 - 1) ∧
      t.out = s.out ++ chunks.flatMap (fun c => makeChunk c.1 c.2)

/-! ## The host -/

/-- 43_host_sequences.md R132. The IHDR payload: 13 bytes, the offsets of its fields, and the thirteen CHUNK_DATA commands by
which the block receives it. -/
def Obligations.IhdrPayloadLayout : Prop :=
  ∀ width height : Word,
    ihdrPayload width height = be32 width ++ be32 height ++ [0x08#8, 0x02#8, 0x00#8, 0x00#8, 0x00#8] ∧
    (ihdrPayload width height).length = 13 ∧
    (ihdrPayload width height).take 4 = be32 width ∧ ((ihdrPayload width height).drop 4).take 4 = be32 height ∧
    (ihdrPayload width height)[8]? = some 0x08#8 ∧ (ihdrPayload width height)[9]? = some 0x02#8 ∧
    (ihdrPayload width height)[10]? = some 0x00#8 ∧ (ihdrPayload width height)[11]? = some 0x00#8 ∧
    (ihdrPayload width height)[12]? = some 0x00#8 ∧
    chunkCommands tagIHDR (ihdrPayload width height) =
      .chunkStart tagIHDR 13#32 :: (ihdrPayload width height).map .chunkData

/-- Rests on 43_host_sequences.md section 2 (R133). The length of the scanline buffer of a valid image, and the byte at each
place of it: a filter byte at the start of each row, then the pixel's r, g and b in row-major order. -/
def Obligations.ScanlineBufferLayout : Prop :=
  ∀ img : RasterImage, img.valid = true →
    (scanlines img).length = img.height.toNat * (1 + 3 * img.width.toNat) ∧
    ∀ y, y < img.height.toNat →
      (scanlines img)[y * (1 + 3 * img.width.toNat)]? = some 0x00#8 ∧
      ∀ x, x < img.width.toNat → ∃ p, img.pixels[y * img.width.toNat + x]? = some p ∧
        (scanlines img)[y * (1 + 3 * img.width.toNat) + 1 + 3 * x]? = some p.r ∧
        (scanlines img)[y * (1 + 3 * img.width.toNat) + 2 + 3 * x]? = some p.g ∧
        (scanlines img)[y * (1 + 3 * img.width.toNat) + 3 + 3 * x]? = some p.b

/-- Rests on 43_host_sequences.md sections 3, 4 and 8 (R136, R138, R140, R145 a). The host's commands for an image, from any IDLE
state: z + 16 of them, accepted in full, appending z + 49 bytes, which with the signature in front are the encoded file and
end with the IEND chunk. -/
def Obligations.ImageCommandsEmitFile : Prop :=
  ∀ (ε : Type) (compress : List Byte → Except ε (List Byte)) (img : RasterImage) (z : List Byte) (s : State),
    img.valid = true → compress (scanlines img) = .ok z → z.length ≤ 2 ^ 32 - 1 → s.phase = .idle →
    ∃ is, hostCommands compress img = .ok is ∧ is.length = z.length + 16 ∧
      (s.port = commandEvents is → ∃ (t : State) (bs : List Byte), run is.length s = .next t ∧ t.phase = .idle ∧
        t.err = s.err ∧ (∃ rs, t.responses = s.responses ++ rs ∧ rs.length = is.length ∧ ∀ r ∈ rs, respCode r = 0#4) ∧
        t.out = s.out ++ bs ∧ bs.length = z.length + 49 ∧
        encodePng compress img = .ok ([0x89#8, 0x50#8, 0x4E#8, 0x47#8, 0x0D#8, 0x0A#8, 0x1A#8, 0x0A#8] ++ bs) ∧
        bs.drop (z.length + 37) =
          [0x00#8, 0x00#8, 0x00#8, 0x00#8, 0x49#8, 0x45#8, 0x4E#8, 0x44#8, 0xAE#8, 0x42#8, 0x60#8, 0x82#8])

/-- Rests on 43_host_sequences.md sections 1 and 4 (R131, R139). The host issues no command exactly for an image that is not
valid (InvalidDimensions), for a failing compressor (whose error it passes on unchanged), and for a compressed buffer the
length field cannot hold. -/
def Obligations.HostErrorsIssueNoCommand : Prop :=
  ∀ (ε : Type) (compress : List Byte → Except ε (List Byte)) (img : RasterImage),
    (hostCommands compress img = .error .invalidDimensions ↔
      img.width = 0#32 ∨ img.height = 0#32 ∨ img.pixels.length ≠ img.width.toNat * img.height.toNat) ∧
    (∀ e, img.valid = true → compress (scanlines img) = .error e →
      hostCommands compress img = .error (.compressionFailure e)) ∧
    (∀ z, img.valid = true → compress (scanlines img) = .ok z → 2 ^ 32 - 1 < z.length →
      hostCommands compress img = .error .payloadTooLong) ∧
    (∀ z, img.valid = true → compress (scanlines img) = .ok z → z.length ≤ 2 ^ 32 - 1 →
      hostCommands compress img = .ok (imageCommands img.width img.height z))

/-- Rests on 30_encoding.md section 8 (R61) and on log entry 10 (what is read as a line). The text printed for a command, its
numbers in hexadecimal, reads back as that command alone. -/
def Obligations.PrintedCommandReadsBack : Prop := ∀ i : Instr, assembleLine (showInstr i) = some [i]
end

