-- ==== Sys2Proof/Laws/Crc.lean ====
section
/-! SUPPORT. Small lemmas of the CRC functions and of the byte forms. -/

namespace Sys2Proof.Machine

@[simp] theorem crcBytes_nil (c : Word) : crcBytes c [] = c := rfl

@[simp] theorem crcBytes_cons (c : Word) (d : Byte) (t : List Byte) :
    crcBytes c (d :: t) = crcBytes (crcUpdate c d) t := rfl

@[simp] theorem be32_length (v : Word) : (be32 v).length = 4 := rfl

@[simp] theorem tagBytes_length (t : Tag) : (tagBytes t).length = 4 := rfl

@[simp] theorem not32_not32 (c : Word) : not32 (not32 c) = c := by
  simp [not32]

end Sys2Proof.Machine
end

