-- ==== Sys2Proof/Laws/State.lean ====
section
/-! SUPPORT. One lemma per field for each update of the state, all true by unfolding, so that no later proof unfolds a
record update. -/

namespace Sys2Proof.Machine

@[simp] theorem emit_crc (b : Byte) (s : State) :
    (emit b s).crc = s.crc := rfl
@[simp] theorem emit_rem (b : Byte) (s : State) :
    (emit b s).rem = s.rem := rfl
@[simp] theorem emit_phase (b : Byte) (s : State) :
    (emit b s).phase = s.phase := rfl
@[simp] theorem emit_err (b : Byte) (s : State) :
    (emit b s).err = s.err := rfl
@[simp] theorem emit_out (b : Byte) (s : State) :
    (emit b s).out = s.out ++ [b] := rfl
@[simp] theorem emit_port (b : Byte) (s : State) :
    (emit b s).port = s.port := rfl
@[simp] theorem emit_responses (b : Byte) (s : State) :
    (emit b s).responses = s.responses := rfl

@[simp] theorem answer_crc (code : BitVec 4) (val : Word) (s : State) :
    (answer code val s).crc = s.crc := rfl
@[simp] theorem answer_rem (code : BitVec 4) (val : Word) (s : State) :
    (answer code val s).rem = s.rem := rfl
@[simp] theorem answer_phase (code : BitVec 4) (val : Word) (s : State) :
    (answer code val s).phase = s.phase := rfl
@[simp] theorem answer_err (code : BitVec 4) (val : Word) (s : State) :
    (answer code val s).err = s.err := rfl
@[simp] theorem answer_out (code : BitVec 4) (val : Word) (s : State) :
    (answer code val s).out = s.out := rfl
@[simp] theorem answer_port (code : BitVec 4) (val : Word) (s : State) :
    (answer code val s).port = s.port := rfl
@[simp] theorem answer_responses (code : BitVec 4) (val : Word) (s : State) :
    (answer code val s).responses = s.responses ++ [respWord code val] := rfl

@[simp] theorem respond_crc (val : Word) (s : State) :
    (respond val s).crc = s.crc := rfl
@[simp] theorem respond_rem (val : Word) (s : State) :
    (respond val s).rem = s.rem := rfl
@[simp] theorem respond_phase (val : Word) (s : State) :
    (respond val s).phase = s.phase := rfl
@[simp] theorem respond_err (val : Word) (s : State) :
    (respond val s).err = s.err := rfl
@[simp] theorem respond_out (val : Word) (s : State) :
    (respond val s).out = s.out := rfl
@[simp] theorem respond_port (val : Word) (s : State) :
    (respond val s).port = s.port := rfl
@[simp] theorem respond_responses (val : Word) (s : State) :
    (respond val s).responses = s.responses ++ [respWord 0#4 val] := rfl

@[simp] theorem resetRegisters_crc (s : State) :
    (resetRegisters s).crc = Config.seed := rfl
@[simp] theorem resetRegisters_rem (s : State) :
    (resetRegisters s).rem = 0#32 := rfl
@[simp] theorem resetRegisters_phase (s : State) :
    (resetRegisters s).phase = .idle := rfl
@[simp] theorem resetRegisters_err (s : State) :
    (resetRegisters s).err = 0#4 := rfl
@[simp] theorem resetRegisters_out (s : State) :
    (resetRegisters s).out = s.out := rfl
@[simp] theorem resetRegisters_port (s : State) :
    (resetRegisters s).port = s.port := rfl
@[simp] theorem resetRegisters_responses (s : State) :
    (resetRegisters s).responses = s.responses := rfl

@[simp] theorem powerOnReset_crc (s : State) :
    (powerOnReset s).crc = Config.seed := rfl
@[simp] theorem powerOnReset_rem (s : State) :
    (powerOnReset s).rem = 0#32 := rfl
@[simp] theorem powerOnReset_phase (s : State) :
    (powerOnReset s).phase = .idle := rfl
@[simp] theorem powerOnReset_err (s : State) :
    (powerOnReset s).err = 0#4 := rfl
@[simp] theorem powerOnReset_out (s : State) :
    (powerOnReset s).out = [] := rfl
@[simp] theorem powerOnReset_port (s : State) :
    (powerOnReset s).port = s.port := rfl
@[simp] theorem powerOnReset_responses (s : State) :
    (powerOnReset s).responses = [] := rfl

@[simp] theorem presentFirst_crc (w : CmdWord) (s : State) :
    (presentFirst w s).crc = s.crc := rfl
@[simp] theorem presentFirst_rem (w : CmdWord) (s : State) :
    (presentFirst w s).rem = s.rem := rfl
@[simp] theorem presentFirst_phase (w : CmdWord) (s : State) :
    (presentFirst w s).phase = s.phase := rfl
@[simp] theorem presentFirst_err (w : CmdWord) (s : State) :
    (presentFirst w s).err = s.err := rfl
@[simp] theorem presentFirst_out (w : CmdWord) (s : State) :
    (presentFirst w s).out = s.out := rfl
@[simp] theorem presentFirst_port (w : CmdWord) (s : State) :
    (presentFirst w s).port = .command w :: s.port := rfl
@[simp] theorem presentFirst_responses (w : CmdWord) (s : State) :
    (presentFirst w s).responses = s.responses := rfl

@[simp] theorem presentAll_crc (is : List Instr) (s : State) :
    (presentAll is s).crc = s.crc := rfl
@[simp] theorem presentAll_rem (is : List Instr) (s : State) :
    (presentAll is s).rem = s.rem := rfl
@[simp] theorem presentAll_phase (is : List Instr) (s : State) :
    (presentAll is s).phase = s.phase := rfl
@[simp] theorem presentAll_err (is : List Instr) (s : State) :
    (presentAll is s).err = s.err := rfl
@[simp] theorem presentAll_out (is : List Instr) (s : State) :
    (presentAll is s).out = s.out := rfl
@[simp] theorem presentAll_port (is : List Instr) (s : State) :
    (presentAll is s).port = s.port ++ commandEvents is := rfl
@[simp] theorem presentAll_responses (is : List Instr) (s : State) :
    (presentAll is s).responses = s.responses := rfl

end Sys2Proof.Machine
end

