-- ==== Sys2Proof/Laws/Ops.lean ====
section
/-! SUPPORT. For each shared operation, one lemma that says everything it does; proofs cite it instead of unfolding. -/

namespace Sys2Proof.Machine

theorem emitAll_eq (bs : List Byte) (s : State) : emitAll bs s = { s with out := s.out ++ bs } := by
  induction bs generalizing s with
  | nil => simp [emitAll]
  | cons b bs ih => simp [emitAll, ih, emit]

theorem emitU32_eq (v : Word) (s : State) : emitU32 v s = { s with out := s.out ++ be32 v } :=
  emitAll_eq _ s

@[simp] theorem respCode_respWord (code : BitVec 4) (val : Word) : respCode (respWord code val) = code := by
  ext k hk
  simp only [respCode, respWord, BitVec.getElem_extractLsb', BitVec.getLsbD_append]
  rw [if_neg (by omega), Nat.add_sub_cancel_left, BitVec.getLsbD_eq_getElem hk]

@[simp] theorem respVal_respWord (code : BitVec 4) (val : Word) : respVal (respWord code val) = val := by
  ext k hk
  simp only [respVal, respWord, BitVec.getElem_extractLsb', BitVec.getLsbD_append]
  rw [if_pos (by omega), Nat.zero_add, BitVec.getLsbD_eq_getElem hk]

theorem raiseFault_of_fault (c : FaultCode) (s : State) (h : s.phase = .fault) :
    raiseFault c s = { s with responses := s.responses ++ [respWord (faultCode c) 0#32] } := by
  simp [raiseFault, enterFault, h, answer]

theorem raiseFault_of_running (c : FaultCode) (s : State) (h : s.phase ≠ .fault) :
    raiseFault c s =
      { s with err := faultCode c, phase := .fault, responses := s.responses ++ [respWord (faultCode c) 0#32] } := by
  cases hp : s.phase with
  | fault => exact absurd hp h
  | idle => simp [raiseFault, enterFault, hp, answer]
  | payload => simp [raiseFault, enterFault, hp, answer]

/-- Fault entry leaves CRC, REM, OUT and the port alone, ends in FAULT, and answers with the code. -/
theorem raiseFault_frame (c : FaultCode) (s : State) :
    (raiseFault c s).crc = s.crc ∧ (raiseFault c s).rem = s.rem ∧ (raiseFault c s).out = s.out ∧
      (raiseFault c s).port = s.port ∧ (raiseFault c s).phase = .fault ∧
      (raiseFault c s).responses = s.responses ++ [respWord (faultCode c) 0#32] := by
  by_cases h : s.phase = .fault
  · simp [raiseFault_of_fault c s h, h]
  · simp [raiseFault_of_running c s h]

theorem phaseFault_of_fault (legal : Phase) (s : State) (h : s.phase = .fault) :
    phaseFault legal s = some .eHalted := by
  simp [phaseFault, h]

theorem phaseFault_of_legal (legal : Phase) (s : State) (h : s.phase = legal) (hl : legal ≠ .fault) :
    phaseFault legal s = none := by
  simp [phaseFault, h, hl]

theorem phaseFault_of_other (legal : Phase) (s : State) (h : s.phase ≠ .fault) (hl : s.phase ≠ legal) :
    phaseFault legal s = some .eState := by
  simp [phaseFault, h, hl]

theorem wellFormed_iff (t : Tag) :
    t.wellFormed = true ↔ t.b0 ≤ 0x7F#8 ∧ t.b1 ≤ 0x7F#8 ∧ t.b2 ≤ 0x7F#8 ∧ t.b3 ≤ 0x7F#8 := by
  unfold Tag.wellFormed
  simp only [Bool.and_eq_true, decide_eq_true_eq, and_assoc]
  rfl

theorem payloadFits_iff (payload : List Byte) : payloadFits payload = true ↔ payload.length ≤ 2 ^ 32 - 1 := by
  unfold payloadFits
  rw [decide_eq_true_eq]
  rfl

/-- The tag check of CHUNK_START refuses exactly the tags that are not well-formed (41_chunk.md R102). -/
theorem tagRefused_eq (t : Tag) : tagRefused t = !t.wellFormed := by
  simp [tagRefused, tagBytes, Tag.wellFormed, Config.maxTagByte, ← BitVec.not_lt, Bool.or_assoc]

theorem closeChunk_eq (s : State) :
    closeChunk s = { s with out := s.out ++ be32 (not32 s.crc), phase := .idle } := by
  simp [closeChunk, emitU32_eq]

theorem openChunk_zero (tag : Tag) (s : State) :
    openChunk tag 0#32 s =
      { s with
        crc := crcBytes Config.seed (tagBytes tag), rem := 0#32, phase := .idle,
        out := s.out ++ (be32 0#32 ++ tagBytes tag ++ be32 (crc32 (tagBytes tag))) } := by
  simp [openChunk, closeChunk_eq, emitU32_eq, emitAll_eq, crc32]

theorem openChunk_pos (tag : Tag) (n : Word) (s : State) (hn : n ≠ 0#32) :
    openChunk tag n s =
      { s with
        crc := crcBytes Config.seed (tagBytes tag), rem := n, phase := .payload,
        out := s.out ++ (be32 n ++ tagBytes tag) } := by
  simp [openChunk, emitU32_eq, emitAll_eq, hn]

theorem feedChunk_last (d : Byte) (s : State) (h : s.rem = 1#32) :
    feedChunk d s =
      { s with
        crc := crcUpdate s.crc d, rem := 0#32, phase := .idle,
        out := s.out ++ (d :: be32 (not32 (crcUpdate s.crc d))) } := by
  simp [feedChunk, closeChunk_eq, emit, h]

theorem feedChunk_more (d : Byte) (s : State) (h : s.rem ≠ 1#32) :
    feedChunk d s =
      { s with crc := crcUpdate s.crc d, rem := s.rem - 1#32, out := s.out ++ [d] } := by
  have hne : s.rem - 1#32 ≠ 0#32 := fun hz => h (by bv_omega)
  simp [feedChunk, emit, hne]

theorem nextEvent_nil (s : State) (h : s.port = []) : nextEvent s = none := by
  simp [nextEvent, h]

theorem nextEvent_cons (s : State) (e : Event) (rest : List Event) (h : s.port = e :: rest) :
    nextEvent s = some (e, { s with port := rest }) := by
  simp [nextEvent, h]

/-- What a step can do: hold, take a power-on reset, or take a command word. -/
theorem step_cases (s : State) :
    (s.port = [] ∧ step s = .next s) ∨
    (∃ rest, s.port = .powerOn :: rest ∧ step s = .next (powerOnReset { s with port := rest })) ∨
    (∃ w rest, s.port = .command w :: rest ∧ step s = acceptWord w { s with port := rest }) := by
  cases h : s.port with
  | nil => exact .inl ⟨rfl, by simp [step, stepEvent, nextEvent_nil s h]⟩
  | cons e rest =>
    cases e with
    | powerOn => exact .inr (.inl ⟨rest, rfl, by simp [step, stepEvent, nextEvent_cons s _ rest h, acceptEvent]⟩)
    | command w => exact .inr (.inr ⟨w, rest, rfl, by simp [step, stepEvent, nextEvent_cons s _ rest h, acceptEvent]⟩)

end Sys2Proof.Machine
end

