-- ==== Sys2Proof/Laws/PerInstr.lean ====
section
/-! SUPPORT. Statements made per instruction, about the instruction as syntax. Family `MatchesRow`: the word of a command
matches its row of the opcode map (30_encoding.md R55). -/

namespace Sys2Proof.Laws.MatchesRow

/-- The encoded word has the row's pattern under the row's mask. -/
def Statement (i : Instr) : Prop := encode i &&& i.row.mask = i.row.pattern

theorem reset : Statement .reset := by unfold Statement; decide

theorem status : Statement .status := by unfold Statement; decide

theorem crcInit : Statement .crcInit := by unfold Statement; decide

theorem crcByte (d : Byte) : Statement (.crcByte d) := by
  unfold Statement; revert d; decide

theorem crcRead : Statement .crcRead := by unfold Statement; decide

/-- Under the mask of the opcode alone, the operand fields do not matter. -/
theorem opcode_of_masked (op : Byte) (a b : Word) :
    cmdWord op a b &&& 0xFF0000000000000000#72 = op.setWidth 72 <<< 64 := by
  have hm : (0xFF0000000000000000#72 : CmdWord) = BitVec.allOnes 72 <<< 64 := by decide
  rw [hm]
  ext k hk
  simp only [cmdWord, BitVec.getElem_and, BitVec.getElem_shiftLeft, BitVec.getElem_append,
    BitVec.getElem_allOnes]
  by_cases h : k < 64
  · simp [h]
  · have h1 : ¬k < 32 := by omega
    have h2 : ¬k - 32 < 32 := by omega
    have h3 : k - 64 < 8 := by omega
    have h4 : k - 32 - 32 = k - 64 := by omega
    simp [h, h1, h2, h3, h4, BitVec.getLsbD_eq_getElem, BitVec.getElem_setWidth]

theorem chunkStart (tag : Tag) (n : Word) : Statement (.chunkStart tag n) :=
  (opcode_of_masked 0x20#8 (fieldOfTag tag) n).trans (show (0x20#8).setWidth 72 <<< 64 = 0x200000000000000000#72 by decide)

theorem chunkData (d : Byte) : Statement (.chunkData d) := by
  unfold Statement; revert d; decide

end Sys2Proof.Laws.MatchesRow
end

