-- ==== Sys2Proof/Laws/Run.lean ====
section
/-! SUPPORT. Runs of several steps, the events of command sequences, and the fields of a command word. -/

namespace Sys2Proof.Machine

@[simp] theorem run_zero (s : State) : run 0 s = .next s := rfl

/-- A run goes on from the state its first step answers. -/
theorem run_succ (k : Nat) (s t : State) (h : step s = .next t) : run (k + 1) s = run k t := by
  have hc : Sys2Proof.core.step s = .next t := h
  simp only [run, Host.Core.run]
  rw [hc]

/-- A run is taken in two parts. -/
theorem run_add (j k : Nat) (s t : State) (h : run j s = .next t) : run (j + k) s = run k t := by
  induction j generalizing s with
  | zero => cases h; rw [Nat.zero_add]
  | succ j ih =>
    cases hs : step s with
    | next u => rw [run_succ j s u hs] at h; rw [Nat.add_right_comm, run_succ (j + k) s u hs, ih u h]
    | fault r => cases r
    | refused r =>
      have hc : Sys2Proof.core.step s = .refused r := hs
      simp only [run, Host.Core.run, hc] at h
      cases h

/-- One step of a run whose next event is a command that the state then performs. -/
theorem run_command (k : Nat) (s t : State) (w : CmdWord) (rest : List Event) (hp : s.port = .command w :: rest)
    (h : acceptWord w { s with port := rest } = .next t) : run (k + 1) s = run k t :=
  run_succ k s t (by rw [step, stepEvent, nextEvent_cons s _ rest hp]; exact h)

@[simp] theorem commandEvents_nil : commandEvents [] = [] := rfl

@[simp] theorem commandEvents_cons (i : Instr) (is : List Instr) :
    commandEvents (i :: is) = .command (encode i) :: commandEvents is := rfl

@[simp] theorem commandEvents_append (is js : List Instr) :
    commandEvents (is ++ js) = commandEvents is ++ commandEvents js := List.map_append

end Sys2Proof.Machine

namespace Sys2Proof

@[simp] theorem opField_cmdWord (op : Byte) (a b : Word) : opField (cmdWord op a b) = op := by
  ext k hk
  simp only [opField, cmdWord, BitVec.getElem_extractLsb', BitVec.getLsbD_append]
  rw [if_neg (by omega), if_neg (by omega), show 64 + k - 32 - 32 = k by omega, BitVec.getLsbD_eq_getElem hk]

@[simp] theorem aField_cmdWord (op : Byte) (a b : Word) : aField (cmdWord op a b) = a := by
  ext k hk
  simp only [aField, cmdWord, BitVec.getElem_extractLsb', BitVec.getLsbD_append]
  rw [if_neg (by omega), if_pos (by omega), show 32 + k - 32 = k by omega, BitVec.getLsbD_eq_getElem hk]

@[simp] theorem bField_cmdWord (op : Byte) (a b : Word) : bField (cmdWord op a b) = b := by
  ext k hk
  simp only [bField, cmdWord, BitVec.getElem_extractLsb', BitVec.getLsbD_append]
  rw [if_pos (by omega), Nat.zero_add, BitVec.getLsbD_eq_getElem hk]

end Sys2Proof
end

