-- ==== Sys2Proof/Tests/Slice0.lean ====
section
/-! SUPPORT. Tests. Every expected value is taken from spec/: the pattern strings of 30_encoding.md R55, and the vectors of
95_test_vectors.md, whose names (U8, K2, F14, "4.3 row 4") the comments give. The theorems named `witness_...` show, for
every obligation with premises, a state and operands that meet them, clause by clause. -/

namespace Sys2Proof.Tests

open Sys2Proof Sys2Proof.Machine

/-- The state an outcome goes on with. -/
def stateOf : Host.Outcome State Fault Refusal → Option State
  | .next t => some t
  | .fault _ => none
  | .refused _ => none

/-- One step of the machine with a word presented. -/
def after (w : CmdWord) (s : State) : Option State := stateOf (step (presentFirst w s))

/-- What the vectors of 95_test_vectors.md section 4 print of a step. -/
structure Seen where
  code : BitVec 4
  val : Word
  emitted : List Byte
  phase : Phase
  err : BitVec 4
  crc : Word
  rem : Word
  deriving DecidableEq, Repr

/-- The row of a vector table for one word. -/
def seen (w : CmdWord) (s : State) : Option Seen :=
  (after w s).map fun t =>
    ⟨respCode (t.responses.getLastD 0#36), respVal (t.responses.getLastD 0#36), t.out.drop s.out.length, t.phase, t.err,
      t.crc, t.rem⟩

/-- An IDLE state whose CRC register holds the remainder of an IEND chunk (4.6 row 1). -/
def idleState : State := { State.reset with crc := 0x51BD9F7D#32, out := [0x00#8, 0x00#8, 0x00#8, 0x00#8, 0x49#8, 0x45#8, 0x4E#8, 0x44#8, 0xAE#8, 0x42#8, 0x60#8, 0x82#8] }

/-- A PAYLOAD state in which two bytes are owed (4.3 row 1). -/
def payloadTwo : State :=
  { State.reset with crc := 0xCA50F9E1#32, rem := 2#32, phase := .payload, out := [0x00#8, 0x00#8, 0x00#8, 0x02#8, 0x49#8, 0x44#8, 0x41#8, 0x54#8] }

/-- A PAYLOAD state in which one byte is owed (4.3 row 2). -/
def payloadOne : State :=
  { State.reset with crc := 0xE1C4C8E1#32, rem := 1#32, phase := .payload, out := [0x00#8, 0x00#8, 0x00#8, 0x02#8, 0x49#8, 0x44#8, 0x41#8, 0x54#8, 0xAA#8] }

/-- A PAYLOAD state in which the largest number of bytes is owed (4.5 row 1). -/
def payloadMax : State :=
  { State.reset with crc := 0xCA50F9E1#32, rem := 0xFFFFFFFF#32, phase := .payload, out := [0xFF#8, 0xFF#8, 0xFF#8, 0xFF#8, 0x49#8, 0x44#8, 0x41#8, 0x54#8] }

/-- The FAULT state of 4.3 row 4. -/
def faultState : State := { payloadOne with phase := .fault, err := 2#4 }

/-! ## Decoding: words written bit by bit from the patterns of 30_encoding.md R55 -/

/-- `00000001`, all operand bits 0. -/
theorem test_decode_reset :
    decode (0b00000001#8 ++ 0b00000000000000000000000000000000#32 ++
      0b00000000000000000000000000000000#32) = .ok .reset := by decide

/-- `00000010`, all operand bits 0. -/
theorem test_decode_status :
    decode (0b00000010#8 ++ 0b00000000000000000000000000000000#32 ++
      0b00000000000000000000000000000000#32) = .ok .status := by decide

/-- `00010000`, all operand bits 0. -/
theorem test_decode_crcInit :
    decode (0b00010000#8 ++ 0b00000000000000000000000000000000#32 ++
      0b00000000000000000000000000000000#32) = .ok .crcInit := by decide

/-- `00010001`, a = 0, b[31:8] = 0, d = `00110001` (4.1 row 1). -/
theorem test_decode_crcByte :
    decode (0b00010001#8 ++ 0b00000000000000000000000000000000#32 ++
      0b00000000000000000000000000110001#32) = .ok (.crcByte 0x31#8) := by decide

/-- `00010010`, all operand bits 0. -/
theorem test_decode_crcRead :
    decode (0b00010010#8 ++ 0b00000000000000000000000000000000#32 ++
      0b00000000000000000000000000000000#32) = .ok .crcRead := by decide

/-- `00100000`, the first tag byte in a[31:24], n in b (P2 row 1). -/
theorem test_decode_chunkStart :
    decode (0b00100000#8 ++ 0b01001001010010000100010001010010#32 ++
      0b00000000000000000000000000001101#32) = .ok (.chunkStart ⟨0x49#8, 0x48#8, 0x44#8, 0x52#8⟩ 13#32) := by decide

/-- `00100001`, a = 0, b[31:8] = 0, d = `10101010` (4.3 row 2). -/
theorem test_decode_chunkData :
    decode (0b00100001#8 ++ 0b00000000000000000000000000000000#32 ++
      0b00000000000000000000000010101010#32) = .ok (.chunkData 0xAA#8) := by decide

/-- A tag that is not well-formed is a legal operand of the encoding (F16). -/
theorem test_decode_bad_tag :
    decode 0x20FFFFFFFF00000000#72 = .ok (.chunkStart ⟨0xFF#8, 0xFF#8, 0xFF#8, 0xFF#8⟩ 0#32) := by decide

/-- Words of 4.2 that are no command, each rejected by name: F1 to F5 have an undefined opcode, F6 to F11 and F13 a reserved
bit set. -/
theorem test_decode_rejects :
    [0x000000000000000000#72, 0xFF123456789ABCDEF0#72, 0x030000000000000000#72, 0x130000000000000000#72, 0x220000000000000000#72].map decode =
      List.replicate 5 (.error .undefinedOpcode) ∧
    [0x110000000000000100#72, 0x110000000100000000#72, 0x010000000100000000#72, 0x020000000000000001#72, 0x1000000000FFFFFFFF#72, 0x128000000000000000#72, 0x2100000000000001FF#72].map decode =
      List.replicate 7 (.error .reservedBits) := by decide

/-- No two rows of the opcode map share a word: some bit under both masks differs. -/
theorem test_rows_disjoint :
    opcodeMap.Pairwise (fun r q => r.pattern &&& q.mask &&& r.mask ≠ q.pattern &&& r.mask &&& q.mask) := by decide

/-- The opcode table's word of CRC_INIT runs as the first command after reset. -/
theorem test_table_word :
    decodeTableWord 72 0x100000000000000000 = some .crcInit ∧
    (stateOf (step (State.reset.withFetchWord 72 0x100000000000000000))).map State.responses = some [respWord 0#4 0#32] := by
  decide +kernel

/-! ## WellFormed: each check refuses an ill-formed term -/

/-- Each of the four tag bytes above 0x7F is refused; the ends of the range are not (41_chunk.md R102, vector K10). -/
theorem test_tag_ill_formed :
    Tag.wellFormed ⟨0x80#8, 0x44#8, 0x41#8, 0x54#8⟩ = false ∧ Tag.wellFormed ⟨0x49#8, 0x80#8, 0x41#8, 0x54#8⟩ = false ∧
    Tag.wellFormed ⟨0x49#8, 0x44#8, 0x80#8, 0x54#8⟩ = false ∧ Tag.wellFormed ⟨0x49#8, 0x44#8, 0x41#8, 0x80#8⟩ = false ∧
    Tag.wellFormed ⟨0x7F#8, 0x00#8, 0x00#8, 0x7F#8⟩ = true := by decide

/-- A CHUNK_START with such a tag is an ill-formed command. -/
theorem test_instr_ill_formed : Instr.wellFormed (.chunkStart ⟨0x49#8, 0x44#8, 0x41#8, 0x80#8⟩ 0#32) = false := by decide

/-- A payload of 2^32 bytes does not fit the length field; one of 2^32 - 1 bytes does (41_chunk.md R103). -/
theorem test_payload_too_long (p q : List Byte) (hp : p.length = 2 ^ 32) (hq : q.length = 2 ^ 32 - 1) :
    payloadFits p = false ∧ payloadFits q = true := by
  unfold payloadFits Config.maxPayload
  rw [hp, hq]
  decide

/-- Payloads of these two lengths exist. -/
theorem witness_test_payload_too_long :
    (List.replicate (2 ^ 32) (0x00#8 : Byte)).length = 2 ^ 32 ∧
    (List.replicate (2 ^ 32 - 1) (0x00#8 : Byte)).length = 2 ^ 32 - 1 :=
  ⟨List.length_replicate, List.length_replicate⟩

/-- The 1 by 1 red image of scenario S7. -/
def redImage : RasterImage := ⟨1#32, 1#32, [⟨0xFF#8, 0x00#8, 0x00#8⟩]⟩

/-- Zero width, zero height and a wrong pixel count are refused (scenario S6). -/
theorem test_image_ill_formed :
    RasterImage.valid ⟨0#32, 1#32, []⟩ = false ∧ RasterImage.valid ⟨1#32, 0#32, []⟩ = false ∧
    RasterImage.valid ⟨1#32, 1#32, []⟩ = false ∧ redImage.valid = true := by decide

/-! ## The functions -/

/-- U1 to U10. -/
theorem test_crcUpdate :
    crcUpdate 0x00000000#32 0x00#8 = 0x00000000#32 ∧ crcUpdate 0x00000000#32 0x01#8 = 0x77073096#32 ∧
    crcUpdate 0x00000000#32 0x80#8 = 0xEDB88320#32 ∧ crcUpdate 0x00000001#32 0x00#8 = 0x77073096#32 ∧
    crcUpdate 0x80000000#32 0x00#8 = 0x00800000#32 ∧ crcUpdate 0xFFFFFFFF#32 0x00#8 = 0x2DFD1072#32 ∧
    crcUpdate 0xFFFFFFFF#32 0xFF#8 = 0x00FFFFFF#32 ∧ crcUpdate 0xFFFFFFFF#32 0x49#8 = 0x22FDE946#32 ∧
    crcUpdate 0x51BD9F7D#32 0x00#8 = 0x2EE5B01E#32 ∧ crcUpdate 0x12345678#32 0xAB#8 = 0x1FC8B738#32 := by decide +kernel

/-- M1, M2, M4, M6, M7, M11. -/
theorem test_crc32 :
    crc32 [] = 0x00000000#32 ∧ crc32 [0x00#8] = 0xD202EF8D#32 ∧ crc32 [0x61#8] = 0xE8B7BE43#32 ∧
    crc32 [0x31#8, 0x32#8, 0x33#8, 0x34#8, 0x35#8, 0x36#8, 0x37#8, 0x38#8, 0x39#8] = 0xCBF43926#32 ∧
    crc32 [0x49#8, 0x45#8, 0x4E#8, 0x44#8] = 0xAE426082#32 ∧
    crc32 [0xFF#8, 0xFF#8, 0xFF#8, 0xFF#8] = 0xFFFFFFFF#32 := by decide +kernel

/-- Spot checks of the table, 95_test_vectors.md section 5, and the table form on U10. -/
theorem test_table :
    tableEntry 0#8 = 0x00000000#32 ∧ tableEntry 1#8 = 0x77073096#32 ∧ tableEntry 128#8 = 0xEDB88320#32 ∧
    tableEntry 255#8 = 0x2D02EF8D#32 ∧ crcUpdateByTable 0x12345678#32 0xAB#8 = 0x1FC8B738#32 := by decide +kernel

/-- The normal form gives M6 too. -/
theorem test_normal_form :
    crc32Normal [0x31#8, 0x32#8, 0x33#8, 0x34#8, 0x35#8, 0x36#8, 0x37#8, 0x38#8, 0x39#8] = 0xCBF43926#32 := by
  decide +kernel

/-- K1, K2 (13 = `00 00 00 0D` big-endian), K8, K10. -/
theorem test_makeChunk :
    makeChunk tagIEND [] = [0x00#8, 0x00#8, 0x00#8, 0x00#8, 0x49#8, 0x45#8, 0x4E#8, 0x44#8, 0xAE#8, 0x42#8, 0x60#8, 0x82#8] ∧
    makeChunk tagIHDR [0x00#8, 0x00#8, 0x00#8, 0x01#8, 0x00#8, 0x00#8, 0x00#8, 0x01#8, 0x08#8, 0x02#8, 0x00#8, 0x00#8, 0x00#8] =
      [0x00#8, 0x00#8, 0x00#8, 0x0D#8, 0x49#8, 0x48#8, 0x44#8, 0x52#8, 0x00#8, 0x00#8, 0x00#8, 0x01#8] ++
        [0x00#8, 0x00#8, 0x00#8, 0x01#8, 0x08#8, 0x02#8, 0x00#8, 0x00#8, 0x00#8, 0x90#8, 0x77#8, 0x53#8, 0xDE#8] ∧
    makeChunk ⟨0x74#8, 0x45#8, 0x58#8, 0x74#8⟩ [0x41#8] =
      [0x00#8, 0x00#8, 0x00#8, 0x01#8, 0x74#8, 0x45#8, 0x58#8, 0x74#8, 0x41#8, 0x4E#8, 0x9D#8, 0xAB#8, 0xE1#8] ∧
    makeChunk ⟨0x7F#8, 0x00#8, 0x00#8, 0x7F#8⟩ [] =
      [0x00#8, 0x00#8, 0x00#8, 0x00#8, 0x7F#8, 0x00#8, 0x00#8, 0x7F#8, 0xD2#8, 0xA2#8, 0x03#8, 0x7B#8] := by decide +kernel

/-! ## One step of each command -/

/-- 4.3 row 10: RESET clears the fault, nothing is emitted. -/
theorem test_reset :
    seen 0x010000000000000000#72 faultState =
      some ⟨0#4, 0x0#32, [], .idle, 0#4, 0xFFFFFFFF#32, 0#32⟩ := by decide +kernel

/-- F8. -/
theorem test_reset_malformed :
    seen 0x010000000100000000#72 State.reset =
      some ⟨1#4, 0x0#32, [], .fault, 1#4, 0xFFFFFFFF#32, 0#32⟩ := by decide +kernel

/-- 4.3 row 6. -/
theorem test_status :
    seen 0x020000000000000000#72 faultState =
      some ⟨0#4, 0x22#32, [], .fault, 2#4, 0xE1C4C8E1#32, 1#32⟩ := by decide +kernel

/-- 4.3 row 3. -/
theorem test_status_payload :
    seen 0x020000000000000000#72 payloadOne =
      some ⟨0#4, 0x01#32, [], .payload, 0#4, 0xE1C4C8E1#32, 1#32⟩ := by decide +kernel

/-- P1 row 3. -/
theorem test_crcInit :
    seen 0x100000000000000000#72 idleState =
      some ⟨0#4, 0x0#32, [], .idle, 0#4, 0xFFFFFFFF#32, 0#32⟩ := by decide +kernel

/-- 4.1 row 1. -/
theorem test_crcByte :
    seen 0x110000000000000031#72 State.reset =
      some ⟨0#4, 0x0#32, [], .idle, 0#4, 0x7C231048#32, 0#32⟩ := by decide +kernel

/-- 4.6 row 3: the register is not seeded again. -/
theorem test_crcByte_continues :
    seen 0x110000000000000000#72 idleState =
      some ⟨0#4, 0x0#32, [], .idle, 0#4, 0x2EE5B01E#32, 0#32⟩ := by decide +kernel

/-- 4.6 row 2. -/
theorem test_crcRead :
    seen 0x120000000000000000#72 idleState =
      some ⟨0#4, 0xAE426082#32, [], .idle, 0#4, 0x51BD9F7D#32, 0#32⟩ := by decide +kernel

/-- 4.3 row 4. -/
theorem test_crcRead_payload :
    seen 0x120000000000000000#72 payloadOne =
      some ⟨2#4, 0x0#32, [], .fault, 2#4, 0xE1C4C8E1#32, 1#32⟩ := by decide +kernel

/-- 4.5 row 1. -/
theorem test_chunkStart :
    seen 0x2049444154FFFFFFFF#72 State.reset =
      some ⟨0#4, 0xFFFFFFFF#32, [0xFF#8, 0xFF#8, 0xFF#8, 0xFF#8, 0x49#8, 0x44#8, 0x41#8, 0x54#8], .payload, 0#4, 0xCA50F9E1#32, 0xFFFFFFFF#32⟩ := by decide +kernel

/-- 4.4, second run, row 2 (with 4.5 row 1 before it): E_STATE comes before E_TAG. -/
theorem test_chunkStart_payload_bad_tag :
    seen 0x208000000000000000#72 payloadMax =
      some ⟨2#4, 0x0#32, [], .fault, 2#4, 0xCA50F9E1#32, 0xFFFFFFFF#32⟩ := by decide +kernel

/-- 4.5 row 2. -/
theorem test_chunkData :
    seen 0x210000000000000000#72 payloadMax =
      some ⟨0#4, 0xFFFFFFFE#32, [0x00#8], .payload, 0#4, 0xD7C78217#32, 0xFFFFFFFE#32⟩ := by decide +kernel

/-- 4.4 row 2: the last byte and the trailer. -/
theorem test_chunkData_last :
    seen 0x210000000000000041#72 { State.reset with crc := 0x69BD3A7A#32, rem := 1#32, phase := .payload } =
      some ⟨0#4, 0x0#32, [0x41#8, 0x4E#8, 0x9D#8, 0xAB#8, 0xE1#8], .idle, 0#4, 0xB162541E#32, 0#32⟩ := by decide +kernel

/-- F1 to F16, each one step from reset: code, PHASE, ERR, and nothing emitted. -/
theorem test_fault_codes :
    ([0x000000000000000000#72, 0xFF123456789ABCDEF0#72, 0x030000000000000000#72, 0x130000000000000000#72,
      0x220000000000000000#72, 0x110000000000000100#72, 0x110000000100000000#72, 0x010000000100000000#72,
      0x020000000000000001#72, 0x1000000000FFFFFFFF#72, 0x128000000000000000#72, 0x210000000000000000#72,
      0x2100000000000001FF#72, 0x204944418000000000#72, 0x208044415400000005#72, 0x20FFFFFFFF00000000#72].map fun w =>
      seen w State.reset) =
    ([1#4, 1#4, 1#4, 1#4, 1#4, 1#4, 1#4, 1#4, 1#4, 1#4, 1#4, 2#4, 1#4, 3#4, 3#4, 3#4].map fun c =>
      some ⟨c, 0#32, [], .fault, c, 0xFFFFFFFF#32, 0#32⟩) := by decide +kernel

/-- 4.3 rows 5, 7, 8: in FAULT the code is 4 (also for an ill-formed tag) or 1, and the first code stays in ERR. -/
theorem test_sticky_fault :
    ([0x2100000000000000BB#72, 0x000000000000000000#72, 0x208000000000000000#72].map fun w => seen w faultState) =
      [4#4, 1#4, 4#4].map fun c => some ⟨c, 0#32, [], .fault, 2#4, 0xE1C4C8E1#32, 1#32⟩ := by decide +kernel

/-- A power-on reset empties OUT and keeps what is still presented; a step with nothing presented holds the state. -/
theorem test_power_on_and_hold :
    stateOf (step { faultState with port := [.powerOn, .command 0#72] }) = some { State.reset with port := [.command 0#72] } ∧
    stateOf (step faultState) = some faultState := by decide +kernel

/-! ## The host and the text form -/

/-- Scenario S7: the scanline buffer of the red image, and the size z + 16 of its command sequence (P2). -/
theorem test_scanlines :
    scanlines redImage = [0x00#8, 0xFF#8, 0x00#8, 0x00#8] ∧ (imageCommands 1#32 1#32 (scanlines redImage)).length = 20 := by
  decide +kernel

/-- P2: the chunks of the red image with the stub compressor are K2, K3, K1; the file is 61 bytes. -/
theorem test_image_chunks :
    imageChunks 1#32 1#32 (scanlines redImage) =
      [0x00#8, 0x00#8, 0x00#8, 0x0D#8, 0x49#8, 0x48#8, 0x44#8, 0x52#8, 0x00#8, 0x00#8, 0x00#8, 0x01#8] ++
      [0x00#8, 0x00#8, 0x00#8, 0x01#8, 0x08#8, 0x02#8, 0x00#8, 0x00#8, 0x00#8, 0x90#8, 0x77#8, 0x53#8, 0xDE#8] ++
      [0x00#8, 0x00#8, 0x00#8, 0x04#8, 0x49#8, 0x44#8, 0x41#8, 0x54#8, 0x00#8, 0xFF#8, 0x00#8, 0x00#8, 0x54#8, 0xBB#8, 0xD3#8, 0xEA#8] ++
      [0x00#8, 0x00#8, 0x00#8, 0x00#8, 0x49#8, 0x45#8, 0x4E#8, 0x44#8, 0xAE#8, 0x42#8, 0x60#8, 0x82#8] ∧
    (signature ++ imageChunks 1#32 1#32 (scanlines redImage)).length = 61 := by decide +kernel

/-- P1 row 8: the trailer of an IEND chunk read back is the CRC the host recomputes. -/
theorem test_read_chunk :
    (readChunk idleState.out).map (fun c => (c.tag, c.payload, c.trailer, trailerMatches c 0xAE426082#32)) =
      some (tagIEND, [], 0xAE426082#32, true) := by decide +kernel

/-- P1 row 1 as printed: a tag in quotes, a decimal length. -/
theorem test_text_start :
    assembleLine ['C', 'H', 'U', 'N', 'K', '_', 'S', 'T', 'A', 'R', 'T', ' ', quoteMark, 'I', 'E', 'N', 'D', quoteMark, ',', ' ', '0'] =
      some [.chunkStart tagIEND 0#32] := by decide +kernel

/-- 4.3 row 2, with a comment. -/
theorem test_text_data :
    assembleLine ['C', 'H', 'U', 'N', 'K', '_', 'D', 'A', 'T', 'A', ' ', '0', 'x', 'A', 'A', ' ', ';', ' ', 'x'] =
      some [.chunkData 0xAA#8] := by decide +kernel

/-- The pseudo-command CHUNK (30_encoding.md R62). -/
theorem test_text_chunk :
    assembleLine ['C', 'H', 'U', 'N', 'K', ' ', quoteMark, 'I', 'D', 'A', 'T', quoteMark, ',', ' ', '0', 'x', '0', '1', ' ', '0', 'x', 'F', 'F'] =
      some [.chunkStart tagIDAT 2#32, .chunkData 0x01#8, .chunkData 0xFF#8] := by decide +kernel

/-- The pseudo-command CRC32 (30_encoding.md R62). -/
theorem test_text_crc32 :
    assembleLine ['C', 'R', 'C', '3', '2', ' ', '0', 'x', '4', '9'] =
      some [.crcInit, .crcByte 0x49#8, .crcRead] := by decide +kernel

/-- A token of a line that reads as the byte 0x00. -/
def zeroToken : Token := .word ['0', 'x', '0', '0']

/-- A line of such tokens reads as as many zero bytes. -/
theorem byteOperands_zeros (k : Nat) :
    byteOperands (List.replicate k zeroToken) = some (List.replicate k 0x00#8) := by
  have h : byteOperand zeroToken = some 0x00#8 := by decide +kernel
  induction k with
  | zero => rfl
  | succ k ih => rw [List.replicate_succ, byteOperands, h, ih]; rfl

/-- A CHUNK line of 2^32 data bytes reads as no answer (log entry 10); 30_encoding.md R60 has such a payload refused. -/
theorem test_text_chunk_too_long :
    chunkLine (.quoted ['I', 'D', 'A', 'T'] :: .comma :: List.replicate (2 ^ 32) zeroToken) = none := by
  have ht : tagOperand (.quoted ['I', 'D', 'A', 'T']) = some tagIDAT := by decide +kernel
  have hf := (test_payload_too_long (List.replicate (2 ^ 32) 0x00#8) (List.replicate (2 ^ 32 - 1) 0x00#8)
    List.length_replicate List.length_replicate).1
  rw [chunkLine, ht, byteOperands_zeros]
  simp only [hf, Bool.false_eq_true, if_false]

/-- The 18 digits in three groups, as 95_test_vectors.md prints words. -/
theorem test_show_word : showWord (encode (.chunkStart tagIEND 0#32)) = ['2', '0', ' ', '4', '9', '4', '5', '4', 'E', '4', '4', ' ', '0', '0', '0', '0', '0', '0', '0', '0'] := by
  decide +kernel

/-! ## Witnesses for the obligations that have premises -/

theorem witness_ResetRestoresRegisters_leaves_fault :
    faultState.phase = .fault ∧ ∃ t, acceptWord 0x010000000000000000#72 faultState = .next t ∧ t.phase ≠ .fault :=
  ⟨rfl, _, rfl, by decide⟩

theorem witness_ResetRestoresRegisters_reserved :
    ((1#32 : Word) ≠ 0#32 ∨ (0#32 : Word) ≠ 0#32) ∧ ((0#32 : Word) ≠ 0#32 ∨ (0x80000000#32 : Word) ≠ 0#32) := by decide

theorem witness_StatusAnswersPhaseAndErr_values :
    State.reset.Inv ∧ payloadOne.Inv ∧ faultState.Inv ∧ { faultState with err := 1#4 }.Inv ∧
      { faultState with err := 3#4 }.Inv := by decide +kernel

theorem witness_StatusAnswersPhaseAndErr_reserved : ((0#32 : Word) ≠ 0#32 ∨ (1#32 : Word) ≠ 0#32) := by decide

theorem witness_CrcInitLoadsSeed_idle :
    idleState.phase = .idle ∧ ∃ t u, exec .crcInit idleState = .next t ∧ exec .crcInit t = .next u :=
  ⟨rfl, _, _, rfl, rfl⟩

theorem witness_CrcInitLoadsSeed_payload : payloadOne.phase = .payload := rfl

theorem witness_CrcInitLoadsSeed_fault : faultState.phase = .fault := rfl

theorem witness_CrcInitLoadsSeed_reserved : ((0#32 : Word) ≠ 0#32 ∨ (0xFFFFFFFF#32 : Word) ≠ 0#32) := by decide

theorem witness_CrcByteFoldsByte_phases :
    idleState.phase = .idle ∧ payloadOne.phase = .payload ∧ faultState.phase = .fault := ⟨rfl, rfl, rfl⟩

theorem witness_CrcByteFoldsByte_reserved :
    ((1#32 : Word) ≠ 0#32 ∨ (0#32 : Word).extractLsb' 8 24 ≠ 0#24) ∧
    ((0#32 : Word) ≠ 0#32 ∨ (0x00000100#32 : Word).extractLsb' 8 24 ≠ 0#24) := by decide

theorem witness_CrcReadAnswersComplement_phases :
    idleState.phase = .idle ∧ payloadOne.phase = .payload ∧ faultState.phase = .fault := ⟨rfl, rfl, rfl⟩

theorem witness_CrcReadAnswersComplement_seed : State.reset.phase = .idle ∧ State.reset.crc = 0xFFFFFFFF#32 := ⟨rfl, rfl⟩

theorem witness_CrcReadAnswersComplement_iend : idleState.phase = .idle ∧ idleState.crc = 0x51BD9F7D#32 := ⟨rfl, rfl⟩

theorem witness_CrcReadAnswersComplement_reserved : ((0x80000000#32 : Word) ≠ 0#32 ∨ (0#32 : Word) ≠ 0#32) := by decide

/-- The tag of K10, its bytes at both ends of the range; n at both ends of its range. -/
theorem witness_ChunkStartOpensChunk_legal :
    idleState.phase = .idle ∧ (0x7F#8 : Byte) ≤ 0x7F#8 ∧ (0x00#8 : Byte) ≤ 0x7F#8 ∧ (1#32 : Word) ≠ 0#32 ∧
      (0xFFFFFFFF#32 : Word) ≠ 0#32 := by decide

/-- A byte 0x80 in each of the four places. -/
theorem witness_ChunkStartOpensChunk_bad_tag :
    idleState.phase = .idle ∧ ∀ tag ∈ [(⟨0x80#8, 0#8, 0#8, 0#8⟩ : Tag), ⟨0#8, 0x80#8, 0#8, 0#8⟩, ⟨0#8, 0#8, 0x80#8, 0#8⟩,
      ⟨0#8, 0#8, 0#8, 0x80#8⟩], 0x7F#8 < tag.b0 ∨ 0x7F#8 < tag.b1 ∨ 0x7F#8 < tag.b2 ∨ 0x7F#8 < tag.b3 := by decide

theorem witness_ChunkStartOpensChunk_refused : payloadOne.phase = .payload ∧ faultState.phase = .fault := ⟨rfl, rfl⟩

theorem witness_ChunkDataSuppliesByte_more :
    (payloadTwo.phase = .payload ∧ payloadTwo.rem ≠ 0#32 ∧ payloadTwo.rem ≠ 1#32) ∧
    (payloadMax.phase = .payload ∧ payloadMax.rem ≠ 0#32 ∧ payloadMax.rem ≠ 1#32) := by decide

/-- The state of the rule's example, after CHUNK_START "IDAT", 3. -/
theorem witness_ChunkDataSuppliesByte_example :
    { payloadTwo with rem := 3#32 }.phase = .payload ∧ { payloadTwo with rem := 3#32 }.crc = 0xCA50F9E1#32 ∧
      { payloadTwo with rem := 3#32 }.rem = 3#32 := ⟨rfl, rfl, rfl⟩

theorem witness_ChunkDataSuppliesByte_last : payloadOne.phase = .payload ∧ payloadOne.rem = 1#32 := ⟨rfl, rfl⟩

theorem witness_ChunkDataSuppliesByte_refused : idleState.phase = .idle ∧ faultState.phase = .fault := ⟨rfl, rfl⟩

theorem witness_ChunkDataSuppliesByte_reserved :
    ((0x80000000#32 : Word) ≠ 0#32 ∨ (0#32 : Word).extractLsb' 8 24 ≠ 0#24) ∧
    ((0#32 : Word) ≠ 0#32 ∨ (0x80000000#32 : Word).extractLsb' 8 24 ≠ 0#24) := by decide

/-- CHUNK_DATA with the last byte changes CRC, REM, PHASE and OUT. -/
theorem witness_CommandsWriteOnlyTheirElements :
    ∃ t, exec (.chunkData 0x00#8) payloadOne = .next t ∧ t.crc ≠ payloadOne.crc ∧ t.rem ≠ payloadOne.rem ∧
      t.phase ≠ payloadOne.phase ∧ t.out ≠ payloadOne.out :=
  ⟨_, rfl, by decide +kernel, by decide +kernel, by decide +kernel, by decide +kernel⟩

/-- A refused command, and RESET, change ERR; a position of OUT within its length. -/
theorem witness_CommandsWriteOnlyTheirElements_err :
    (∃ t, exec .crcRead payloadOne = .next t ∧ t.err ≠ payloadOne.err) ∧
    (∃ t, exec .reset faultState = .next t ∧ t.err ≠ faultState.err) ∧ 0 < payloadOne.out.length :=
  ⟨⟨_, rfl, by decide⟩, ⟨_, rfl, by decide⟩, by decide⟩

theorem witness_OutIsAppendOnlyAndNeverRead : ∃ t, exec .reset idleState = .next t := ⟨_, rfl⟩

theorem witness_EmittedByteCounts :
    (∃ t, exec (.chunkData 0x00#8) payloadOne = .next t) ∧ payloadOne.phase = .payload ∧ payloadOne.rem ≠ 0#32 :=
  ⟨⟨_, rfl⟩, rfl, by decide⟩

/-- The port of each clause: a word, a word that decodes, a word that does not, nothing, a power-on reset. -/
theorem witness_StepRunsDecodedCommand :
    (presentFirst (encode .status) idleState).port = .command (encode .status) :: [] ∧
    decode (encode .status) = .ok .status ∧ (presentFirst 0#72 idleState).port = .command 0#72 :: [] ∧
    decode 0#72 = .error .undefinedOpcode ∧ idleState.port = [] ∧
    { idleState with port := [Event.powerOn] }.port = .powerOn :: [] := by decide

/-- Each of the four codes, and none. -/
theorem witness_FirstFailingCheckDecidesFault :
    expectedFault 0#72 faultState.phase = some .eOpcode ∧ expectedFault (encode .crcRead) faultState.phase = some .eHalted ∧
    expectedFault (encode .crcRead) payloadOne.phase = some .eState ∧
    expectedFault 0x204944418000000000#72 idleState.phase = some .eTag ∧
    expectedFault (encode .crcRead) idleState.phase = none := by decide

/-- A response with a code, and one without. -/
theorem witness_OneResponsePerCommandWord :
    (respWord 2#4 0#32).extractLsb' 32 4 ≠ 0#4 ∧ (respWord 0#4 0#32).extractLsb' 32 4 = 0#4 := by decide

theorem witness_EncodeAfterDecodeIsIdentity :
    decode 0x2000000000FFFFFFFF#72 = .ok (.chunkStart ⟨0#8, 0#8, 0#8, 0#8⟩ 0xFFFFFFFF#32) := by decide

theorem witness_WordMatchesRowExactlyWhenCommand :
    Instr.row (.chunkStart ⟨0#8, 0#8, 0#8, 0#8⟩ 0#32) ∈ opcodeMap ∧
    (0x20FFFFFFFFFFFFFFFF#72 : CmdWord) &&& 0xFF0000000000000000#72 = 0x200000000000000000#72 ∧
    decode 0x1100000000000000FF#72 = .ok (.crcByte 0xFF#8) := by decide

theorem witness_OpcodeFaultRaisedExactly :
    (∃ t, acceptWord 0x110000000000000100#72 idleState = .next t ∧ lastCode t = some 1#4) ∧
    (∃ t, acceptWord 0x1100000000000000FF#72 idleState = .next t ∧ lastCode t ≠ some 1#4) :=
  ⟨⟨_, rfl, by decide +kernel⟩, ⟨_, rfl, by decide +kernel⟩⟩

theorem witness_FaultEntryDoesExactlyThis : payloadOne.phase ≠ .fault ∧ faultState.phase = .fault := by decide

/-- A command refused with each of the codes 2, 3, 4. -/
theorem witness_PhaseAndTagFaultsRaisedExactly :
    (∃ t, exec (.chunkData 0x00#8) idleState = .next t ∧ lastCode t = some 2#4) ∧
    (∃ t, exec (.chunkStart ⟨0#8, 0#8, 0#8, 0x80#8⟩ 0#32) idleState = .next t ∧ lastCode t = some 3#4) ∧
    (∃ t, exec .crcInit faultState = .next t ∧ lastCode t = some 4#4) :=
  ⟨⟨_, rfl, by decide +kernel⟩, ⟨_, rfl, by decide +kernel⟩, ⟨_, rfl, by decide +kernel⟩⟩

/-- From outside FAULT and from FAULT. -/
theorem witness_RefusedCommandIsPrecise :
    (∃ t, step (presentFirst (encode .crcRead) payloadOne) = .next t ∧ lastCode t ≠ some 0#4) ∧
    payloadOne.phase ≠ .fault ∧
    (∃ t, step (presentFirst (encode .crcRead) faultState) = .next t ∧ lastCode t ≠ some 0#4) ∧ faultState.phase = .fault :=
  ⟨⟨_, rfl, by decide +kernel⟩, by decide, ⟨_, rfl, by decide +kernel⟩, rfl⟩

theorem witness_FaultIsStickyUntilReset :
    faultState.phase = .fault ∧ encode .status ≠ encode .reset ∧ (∃ t, acceptWord (encode .status) faultState = .next t) ∧
      ∃ t, acceptWord (encode .reset) faultState = .next t :=
  ⟨rfl, by decide, ⟨_, rfl⟩, ⟨_, rfl⟩⟩

theorem witness_FaultIsStickyUntilReset_code :
    (∃ t, acceptWord (encode .crcRead) faultState = .next t) ∧ encode .crcRead ≠ encode .reset ∧
      expectedFault (encode .crcRead) .fault = some .eHalted := ⟨⟨_, rfl⟩, by decide, by decide⟩

theorem witness_ResetValues : ∃ t, exec .reset faultState = .next t := ⟨_, rfl⟩

/-- A step in the middle of a chunk. -/
theorem witness_StepKeepsStateInvariant :
    payloadOne.Inv ∧ (∃ t, step (presentFirst (encode (.chunkData 0x00#8)) payloadOne) = .next t) ∧
      ∀ rest, (presentFirst (encode (.chunkData 0x00#8)) payloadOne).port ≠ .powerOn :: rest :=
  ⟨by decide +kernel, ⟨_, rfl⟩, by simp⟩

/-- A state in the middle of a chunk is framed, and a step is possible from it. -/
theorem witness_StepKeepsOutFramed :
    (presentFirst (encode (.chunkData 0x00#8)) payloadOne).Framed ∧
      ∃ t, step (presentFirst (encode (.chunkData 0x00#8)) payloadOne) = .next t :=
  ⟨⟨[], by simp, tagIDAT, 2#32, [0xAA#8], by decide +kernel⟩, ⟨_, rfl⟩⟩

theorem witness_EarlierOutputDoesNotInfluence :
    Event.powerOn ∉ (presentFirst (encode .status) idleState).port := by decide

/-- Two IDLE states with different registers and different OUT, before the same chunk. -/
theorem witness_ChunkBytesIndependentOfPast :
    (presentAll (chunkCommands tagIDAT [0x01#8]) State.reset).phase = .idle ∧
    (presentAll (chunkCommands tagIDAT [0x01#8]) idleState).phase = .idle ∧ tagIDAT.wellFormed = true ∧
    payloadFits [0x01#8] = true ∧
    (presentAll (chunkCommands tagIDAT [0x01#8]) State.reset).port = commandEvents (chunkCommands tagIDAT [0x01#8]) ∧
    (presentAll (chunkCommands tagIDAT [0x01#8]) idleState).port = commandEvents (chunkCommands tagIDAT [0x01#8]) := by
  decide

theorem witness_OneByteDifferenceIsDetected : (0x00#8 : Byte) ≠ 0x01#8 := by decide

theorem witness_Crc32OfXor : ([0x00#8, 0x01#8] : List Byte).length = ([0xFF#8, 0x02#8] : List Byte).length := rfl

/-- The shortest and the longest payload. -/
theorem witness_ChunkWireLayout :
    ([] : List Byte).length ≤ 2 ^ 32 - 1 ∧ (List.replicate (2 ^ 32 - 1) (0x00#8 : Byte)).length ≤ 2 ^ 32 - 1 :=
  ⟨Nat.zero_le _, le_of_eq List.length_replicate⟩

theorem witness_CrcCommandsComputeCrc32 :
    idleState.phase = .idle ∧
    (presentAll (crc32Commands [0x49#8]) idleState).port = commandEvents (crc32Commands [0x49#8]) ++ [] ∧
    State.reset.phase = .idle ∧ State.reset.crc = 0xFFFFFFFF#32 ∧
    (presentAll ([0x49#8].map .crcByte ++ [.crcRead]) State.reset).port =
      commandEvents ([0x49#8].map .crcByte ++ [.crcRead]) ++ [] := by decide

theorem witness_ChunkCommandsComputeMakeChunk :
    (presentAll (chunkCommands tagIDAT [0x01#8, 0x02#8]) idleState).phase = .idle ∧ tagIDAT.wellFormed = true ∧
    [0x01#8, 0x02#8].length ≤ 2 ^ 32 - 1 ∧
    (presentAll (chunkCommands tagIDAT [0x01#8, 0x02#8]) idleState).port =
      commandEvents (chunkCommands tagIDAT [0x01#8, 0x02#8]) ++ [] ∧ 1 < [0x01#8, 0x02#8].length := by decide

theorem witness_ChunkTrailerIsReadBack :
    (presentAll (chunkCommands tagIEND [] ++ [.crcRead]) State.reset).phase = .idle ∧ tagIEND.wellFormed = true ∧
    ([] : List Byte).length ≤ 2 ^ 32 - 1 ∧
    (presentAll (chunkCommands tagIEND [] ++ [.crcRead]) State.reset).port =
      commandEvents (chunkCommands tagIEND [] ++ [.crcRead]) := by decide

theorem witness_ReadBackChunkChecks : ([0x41#8] : List Byte).length ≤ 2 ^ 32 - 1 := by decide

/-- The run of one word that emits an IEND chunk. -/
theorem witness_CompleteRunIsWholeChunks :
    (presentFirst (encode (.chunkStart tagIEND 0#32)) State.reset).AtRunStart ∧
    (presentFirst (encode (.chunkStart tagIEND 0#32)) State.reset).port =
      [encode (.chunkStart tagIEND 0#32)].map .command ++ [] ∧
    encode .reset ∉ [encode (.chunkStart tagIEND 0#32)] ∧
    ∃ t, run 1 (presentFirst (encode (.chunkStart tagIEND 0#32)) State.reset) = .next t ∧
      runComplete (presentFirst (encode (.chunkStart tagIEND 0#32)) State.reset) t = true :=
  ⟨by decide +kernel, rfl, by decide, ⟨_, rfl, by decide +kernel⟩⟩

theorem witness_ScanlineBufferLayout : redImage.valid = true ∧ 0 < redImage.height.toNat ∧ 0 < redImage.width.toNat := by
  decide

/-- The stub compressor of scenario S11. -/
def stubCompressor (bs : List Byte) : Except String (List Byte) := .ok bs

theorem witness_ImageCommandsEmitFile :
    redImage.valid = true ∧ stubCompressor (scanlines redImage) = .ok [0x00#8, 0xFF#8, 0x00#8, 0x00#8] ∧
    [0x00#8, 0xFF#8, 0x00#8, 0x00#8].length ≤ 2 ^ 32 - 1 ∧
    (presentAll (imageCommands 1#32 1#32 [0x00#8, 0xFF#8, 0x00#8, 0x00#8]) State.reset).phase = .idle ∧
    (presentAll (imageCommands 1#32 1#32 [0x00#8, 0xFF#8, 0x00#8, 0x00#8]) State.reset).port =
      commandEvents (imageCommands 1#32 1#32 [0x00#8, 0xFF#8, 0x00#8, 0x00#8]) :=
  ⟨by decide, rfl, by decide, rfl, rfl⟩

/-- Each way for an image not to be valid. -/
theorem witness_HostErrorsIssueNoCommand_dimensions :
    (⟨0#32, 1#32, []⟩ : RasterImage).width = 0#32 ∧ (⟨1#32, 0#32, []⟩ : RasterImage).height = 0#32 ∧
    (⟨1#32, 1#32, []⟩ : RasterImage).pixels.length ≠
      (⟨1#32, 1#32, []⟩ : RasterImage).width.toNat * (⟨1#32, 1#32, []⟩ : RasterImage).height.toNat := by decide

/-- A compressor that fails, one that answers 2^32 bytes, one that answers 2^32 - 1. -/
theorem witness_HostErrorsIssueNoCommand_compressor :
    redImage.valid = true ∧
    (fun _ => .error "failed" : List Byte → Except String (List Byte)) (scanlines redImage) = .error "failed" ∧
    2 ^ 32 - 1 < (List.replicate (2 ^ 32) (0x00#8 : Byte)).length ∧
    (List.replicate (2 ^ 32 - 1) (0x00#8 : Byte)).length ≤ 2 ^ 32 - 1 :=
  ⟨by decide, rfl, by rw [List.length_replicate]; omega, le_of_eq List.length_replicate⟩

end Sys2Proof.Tests
end

section
/-! SUPPORT. `exec` in two cases: the check of 30_encoding.md R56 that refuses a command, or what the performed command
does. Proofs about commands cite these equations instead of unfolding the arms of `exec`. -/

namespace Sys2Proof.Machine

/-- The first failing check among 3 to 5 of 30_encoding.md R56 for a decoded command; `exec_of_refused` and
`exec_of_performed` tie it to `exec`. -/
def execFault : Instr → State → Option FaultCode
  | .reset, _ | .status, _ => none
  | .crcInit, s | .crcByte _, s | .crcRead, s => phaseFault .idle s
  | .chunkStart tag _, s => (phaseFault .idle s).or (if tagRefused tag then some .eTag else none)
  | .chunkData _, s => phaseFault .payload s

/-- The state part of a performed command; `exec_of_performed` ties it to `exec`. -/
def perform : Instr → State → State
  | .reset, s => resetRegisters s
  | .status, s | .crcRead, s => s
  | .crcInit, s => { s with crc := Config.seed }
  | .crcByte d, s => { s with crc := crcUpdate s.crc d }
  | .chunkStart tag n, s => openChunk tag n s
  | .chunkData d, s => feedChunk d s

/-- The value a performed command answers (30_encoding.md R53); `exec_of_performed` ties it to `exec`. -/
def performedValue : Instr → State → Word
  | .reset, _ | .crcInit, _ | .crcByte _, _ => 0#32
  | .status, s => statusWord s
  | .crcRead, s => not32 s.crc
  | .chunkStart tag n, s => (perform (.chunkStart tag n) s).rem
  | .chunkData d, s => (perform (.chunkData d) s).rem

/-- The bytes a performed command emits; `perform_withOut` and `perform_out` tie it to `perform`. -/
def emitted : Instr → State → List Byte
  | .reset, _ | .status, _ | .crcInit, _ | .crcByte _, _ | .crcRead, _ => []
  | .chunkStart tag n, _ => be32 n ++ tagBytes tag ++ if n = 0#32 then be32 (crc32 (tagBytes tag)) else []
  | .chunkData d, s => d :: if s.rem = 1#32 then be32 (not32 (crcUpdate s.crc d)) else []

theorem phaseFault_eq_none_iff (legal : Phase) (s : State) (hl : legal ≠ .fault) :
    phaseFault legal s = none ↔ s.phase = legal := by
  by_cases hf : s.phase = .fault
  · simp [phaseFault_of_fault legal s hf, hf, hl.symm]
  · simp [phaseFault, hf]

theorem phaseFault_eq_eHalted_iff (legal : Phase) (s : State) :
    phaseFault legal s = some .eHalted ↔ s.phase = .fault := by
  by_cases hf : s.phase = .fault
  · simp [phaseFault, hf]
  · by_cases hl : s.phase = legal <;> simp [phaseFault, hf, hl]

theorem exec_eq (i : Instr) (s : State) :
    exec i s = (execFault i s).elim (.next (respond (performedValue i s) (perform i s)))
      (fun c => .next (raiseFault c s)) := by
  cases i with
  | reset | status => rfl
  | crcInit | crcByte d | crcRead =>
    simp only [exec, execCrcInit, execCrcByte, execCrcRead, execFault]
    cases phaseFault .idle s <;> rfl
  | chunkData d =>
    simp only [exec, execChunkData, execFault]
    cases phaseFault .payload s <;> rfl
  | chunkStart tag n =>
    simp only [exec, execChunkStart, execFault]
    cases phaseFault .idle s with
    | some c => rfl
    | none => cases tagRefused tag <;> rfl

theorem exec_of_refused (i : Instr) (s : State) (c : FaultCode) (h : execFault i s = some c) :
    exec i s = .next (raiseFault c s) := by
  rw [exec_eq, h, Option.elim_some]

theorem exec_of_performed (i : Instr) (s : State) (h : execFault i s = none) :
    exec i s = .next (respond (performedValue i s) (perform i s)) := by
  rw [exec_eq, h, Option.elim_none]

/-- `exec` in its two cases, as a fact about the next state. -/
theorem exec_next_cases (i : Instr) (s t : State) (h : exec i s = .next t) :
    (∃ c, execFault i s = some c ∧ t = raiseFault c s) ∨
    (execFault i s = none ∧ t = respond (performedValue i s) (perform i s)) := by
  cases hf : execFault i s with
  | some c => rw [exec_of_refused i s c hf] at h; cases h; exact .inl ⟨c, rfl, rfl⟩
  | none => rw [exec_of_performed i s hf] at h; cases h; exact .inr ⟨rfl, rfl⟩

theorem execFault_chunkStart_eq_none_iff (tag : Tag) (n : Word) (s : State) :
    execFault (.chunkStart tag n) s = none ↔ s.phase = .idle ∧ tag.wellFormed = true := by
  rw [execFault, Option.or_eq_none_iff, phaseFault_eq_none_iff .idle s nofun, tagRefused_eq]
  cases tag.wellFormed <;> simp

theorem execFault_chunkData_eq_none_iff (d : Byte) (s : State) :
    execFault (.chunkData d) s = none ↔ s.phase = .payload :=
  phaseFault_eq_none_iff .payload s nofun

/-- E_HALTED is raised in FAULT only (60_exceptions.md R154). -/
theorem phase_eq_fault_of_execFault (i : Instr) (s : State) (h : execFault i s = some .eHalted) : s.phase = .fault := by
  cases i with
  | reset | status => cases h
  | crcInit | crcByte d | crcRead | chunkData d => exact (phaseFault_eq_eHalted_iff _ s).1 h
  | chunkStart tag n =>
    simp only [execFault, Option.or_eq_some_iff] at h
    rcases h with h | ⟨-, h⟩
    · exact (phaseFault_eq_eHalted_iff _ s).1 h
    · split at h <;> cases h

theorem acceptWord_of_ok (w : CmdWord) (s : State) (i : Instr) (h : decode w = .ok i) : acceptWord w s = exec i s := by
  simp only [acceptWord, h]

theorem acceptWord_of_error (w : CmdWord) (s : State) (e : DecodeError) (h : decode w = .error e) :
    acceptWord w s = .next (raiseFault .eOpcode s) := by
  simp only [acceptWord, h]

/-- The first failing check of 30_encoding.md R56 for a command word; `acceptWord_of_refused` and
`acceptWord_of_performed` tie it to `acceptWord`. -/
def wordFault (w : CmdWord) (s : State) : Option FaultCode :=
  match decode w with
  | .error _ => some .eOpcode
  | .ok i => execFault i s

theorem wordFault_of_ok (w : CmdWord) (s : State) (i : Instr) (h : decode w = .ok i) :
    wordFault w s = execFault i s := by
  simp only [wordFault, h]

theorem wordFault_of_error (w : CmdWord) (s : State) (e : DecodeError) (h : decode w = .error e) :
    wordFault w s = some .eOpcode := by
  simp only [wordFault, h]

theorem acceptWord_of_refused (w : CmdWord) (s : State) (c : FaultCode) (h : wordFault w s = some c) :
    acceptWord w s = .next (raiseFault c s) := by
  cases hd : decode w with
  | error e =>
    rw [wordFault_of_error w s e hd] at h; cases h
    exact acceptWord_of_error w s e hd
  | ok i =>
    rw [wordFault_of_ok w s i hd] at h
    rw [acceptWord_of_ok w s i hd, exec_of_refused i s c h]

/-- A word that passes every check is a command, which is performed. -/
theorem acceptWord_of_performed (w : CmdWord) (s : State) (h : wordFault w s = none) :
    ∃ i, decode w = .ok i ∧ execFault i s = none ∧
      acceptWord w s = .next (respond (performedValue i s) (perform i s)) := by
  cases hd : decode w with
  | error e => rw [wordFault_of_error w s e hd] at h; cases h
  | ok i =>
    rw [wordFault_of_ok w s i hd] at h
    exact ⟨i, rfl, h, by rw [acceptWord_of_ok w s i hd, exec_of_performed i s h]⟩

theorem phase_eq_fault_of_wordFault (w : CmdWord) (s : State) (h : wordFault w s = some .eHalted) :
    s.phase = .fault := by
  cases hd : decode w with
  | error e => rw [wordFault_of_error w s e hd] at h; cases h
  | ok i => exact phase_eq_fault_of_execFault i s (by rwa [wordFault_of_ok w s i hd] at h)

/-! ## What a performed command leaves alone -/

/-- A performed command reads nothing of OUT: with other bytes there it does the same and appends the same. -/
theorem perform_withOut (i : Instr) (s : State) (o : List Byte) :
    perform i { s with out := o } = { perform i s with out := o ++ emitted i s } := by
  cases i with
  | reset | status | crcInit | crcByte d | crcRead => simp [perform, emitted, resetRegisters]
  | chunkStart tag n =>
    by_cases hn : n = 0#32
    · subst hn; simp [perform, emitted, openChunk_zero]
    · simp [perform, emitted, openChunk_pos, hn]
  | chunkData d =>
    by_cases h : s.rem = 1#32
    · simp [perform, emitted, feedChunk_last, h]
    · simp [perform, emitted, feedChunk_more, h]

theorem perform_out (i : Instr) (s : State) : (perform i s).out = s.out ++ emitted i s :=
  congrArg State.out (perform_withOut i s s.out)

theorem openChunk_frame (tag : Tag) (n : Word) (s : State) :
    (openChunk tag n s).port = s.port ∧ (openChunk tag n s).responses = s.responses ∧
      (openChunk tag n s).err = s.err := by
  by_cases hn : n = 0#32
  · subst hn; simp [openChunk_zero]
  · simp [openChunk_pos, hn]

theorem feedChunk_frame (d : Byte) (s : State) :
    (feedChunk d s).port = s.port ∧ (feedChunk d s).responses = s.responses ∧ (feedChunk d s).err = s.err := by
  by_cases h : s.rem = 1#32
  · simp [feedChunk_last, h]
  · simp [feedChunk_more, h]

theorem perform_frame (i : Instr) (s : State) :
    (perform i s).port = s.port ∧ (perform i s).responses = s.responses := by
  cases i with
  | reset | status | crcInit | crcByte d | crcRead => exact ⟨rfl, rfl⟩
  | chunkStart tag n =>
    obtain ⟨hport, hresponses, -⟩ := openChunk_frame tag n s
    exact ⟨hport, hresponses⟩
  | chunkData d =>
    obtain ⟨hport, hresponses, -⟩ := feedChunk_frame d s
    exact ⟨hport, hresponses⟩

theorem perform_crc_ne (i : Instr) (s : State) (h : (perform i s).crc ≠ s.crc) :
    i = .reset ∨ i = .crcInit ∨ (∃ d, i = .crcByte d) ∨ (∃ tag n, i = .chunkStart tag n) ∨ ∃ d, i = .chunkData d := by
  cases i with
  | status | crcRead => exact absurd rfl h
  | reset | crcInit | crcByte d | chunkStart tag n | chunkData d => simp

theorem perform_rem_or_phase_ne (i : Instr) (s : State)
    (h : (perform i s).rem ≠ s.rem ∨ (perform i s).phase ≠ s.phase) :
    i = .reset ∨ (∃ tag n, i = .chunkStart tag n) ∨ ∃ d, i = .chunkData d := by
  cases i with
  | status | crcInit | crcByte d | crcRead => simp [perform] at h
  | reset | chunkStart tag n | chunkData d => simp

theorem perform_err (i : Instr) (s : State) (h : i ≠ .reset) : (perform i s).err = s.err := by
  cases i with
  | reset => exact absurd rfl h
  | status | crcInit | crcByte d | crcRead => rfl
  | chunkStart tag n =>
    obtain ⟨-, -, herr⟩ := openChunk_frame tag n s
    exact herr
  | chunkData d =>
    obtain ⟨-, -, herr⟩ := feedChunk_frame d s
    exact herr

theorem perform_out_ne (i : Instr) (s : State) (h : (perform i s).out ≠ s.out) :
    (∃ tag n, i = .chunkStart tag n) ∨ ∃ d, i = .chunkData d := by
  cases i with
  | reset | status | crcInit | crcByte d | crcRead => exact absurd rfl h
  | chunkStart tag n | chunkData d => simp

@[simp] theorem lastCode_answer (code : BitVec 4) (val : Word) (s : State) :
    lastCode (answer code val s) = some code := by
  simp [lastCode]

@[simp] theorem lastCode_respond (val : Word) (s : State) : lastCode (respond val s) = some 0#4 :=
  lastCode_answer 0#4 val s

@[simp] theorem lastCode_raiseFault (c : FaultCode) (s : State) : lastCode (raiseFault c s) = some (faultCode c) :=
  lastCode_answer (faultCode c) 0#32 (enterFault c s)

theorem faultCode_ne_zero (c : FaultCode) : faultCode c ≠ 0#4 := by
  cases c <;> decide

/-- Fault entry reads nothing of OUT. -/
theorem raiseFault_withOut (c : FaultCode) (s : State) (o : List Byte) :
    raiseFault c { s with out := o } = { raiseFault c s with out := o } := by
  by_cases h : s.phase = .fault
  · rw [raiseFault_of_fault c s h]; exact raiseFault_of_fault c { s with out := o } h
  · rw [raiseFault_of_running c s h]; exact raiseFault_of_running c { s with out := o } h

end Sys2Proof.Machine
end

section
/-! SUPPORT. Reset, the invariant of the registers, and the frame of a command (10_state.md sections 8, 10 and 11). -/

namespace Sys2Proof.Machine

/-! ## The invariant of the registers -/

theorem State.Inv.err_eq_zero (s : State) (h : s.Inv) (hp : s.phase ≠ .fault) : s.err = 0#4 := by
  obtain ⟨-, -, hfault, -⟩ := h
  exact not_not.1 fun he => hp (hfault.2 he)

/-- The invariant outside FAULT, from what its parts are there. -/
theorem State.Inv.of_running (s : State) (herr : s.err = 0#4)
    (hp : s.phase = .idle ∧ s.rem = 0#32 ∨ s.phase = .payload ∧ s.rem ≠ 0#32) : s.Inv := by
  rcases hp with ⟨hp, hr⟩ | ⟨hp, hr⟩ <;> simp [State.Inv, hp, hr, herr]

theorem raiseFault_inv (c : FaultCode) (s : State) (h : s.Inv) (hc : c = .eHalted → s.phase = .fault) :
    (raiseFault c s).Inv := by
  by_cases hp : s.phase = .fault
  · rw [raiseFault_of_fault c s hp]; exact h
  · rw [raiseFault_of_running c s hp]
    cases c with
    | eHalted => exact absurd (hc rfl) hp
    | eOpcode | eState | eTag => simp [State.Inv, faultCode]

theorem perform_inv (i : Instr) (s : State) (h : s.Inv) (hf : execFault i s = none) : (perform i s).Inv := by
  cases i with
  | reset => exact .of_running _ rfl (.inl ⟨rfl, rfl⟩)
  | status | crcInit | crcByte d | crcRead => exact h
  | chunkStart tag n =>
    obtain ⟨hp, -⟩ := (execFault_chunkStart_eq_none_iff tag n s).1 hf
    have herr : s.err = 0#4 := h.err_eq_zero s (by simp [hp])
    by_cases hn : n = 0#32
    · subst hn
      rw [perform, openChunk_zero]
      exact .of_running _ herr (.inl ⟨rfl, rfl⟩)
    · rw [perform, openChunk_pos tag n s hn]
      exact .of_running _ herr (.inr ⟨rfl, hn⟩)
  | chunkData d =>
    have hp := (execFault_chunkData_eq_none_iff d s).1 hf
    have herr : s.err = 0#4 := h.err_eq_zero s (by simp [hp])
    by_cases hr : s.rem = 1#32
    · rw [perform, feedChunk_last d s hr]
      exact .of_running _ herr (.inl ⟨rfl, rfl⟩)
    · rw [perform, feedChunk_more d s hr]
      exact .of_running _ herr (.inr ⟨hp, fun hz => hr (by bv_omega)⟩)

theorem acceptWord_inv (w : CmdWord) (s t : State) (h : s.Inv) (ht : acceptWord w s = .next t) : t.Inv := by
  cases hf : wordFault w s with
  | some c =>
    rw [acceptWord_of_refused w s c hf] at ht; cases ht
    exact raiseFault_inv c s h fun hc => phase_eq_fault_of_wordFault w s (hc ▸ hf)
  | none =>
    obtain ⟨i, -, hi, hw⟩ := acceptWord_of_performed w s hf
    rw [hw] at ht; cases ht
    exact perform_inv i s h hi

/-! ## OUT -/

theorem execFault_withOut (i : Instr) (s : State) (o : List Byte) :
    execFault i { s with out := o } = execFault i s := by
  cases i <;> rfl

theorem wordFault_withOut (w : CmdWord) (s : State) (o : List Byte) :
    wordFault w { s with out := o } = wordFault w s := by
  simp only [wordFault, execFault_withOut]

theorem performedValue_withOut (i : Instr) (s : State) (o : List Byte) :
    performedValue i { s with out := o } = performedValue i s := by
  cases i with
  | reset | status | crcInit | crcByte d | crcRead => rfl
  | chunkStart tag n | chunkData d => simp only [performedValue, perform_withOut]

/-- A command word appends bytes to OUT that do not depend on what OUT holds, nor does anything else it does. -/
theorem acceptWord_withOut (w : CmdWord) (s : State) :
    ∃ (t : State) (bs : List Byte), t.out = s.out ++ bs ∧
      ∀ o : List Byte, acceptWord w { s with out := o } = .next { t with out := o ++ bs } := by
  cases hf : wordFault w s with
  | some c =>
    obtain ⟨-, -, hout, -⟩ := raiseFault_frame c s
    refine ⟨raiseFault c s, [], by rw [hout, List.append_nil], fun o => ?_⟩
    rw [acceptWord_of_refused w _ c ((wordFault_withOut w s o).trans hf), raiseFault_withOut, List.append_nil]
  | none =>
    obtain ⟨i, hd, hi, -⟩ := acceptWord_of_performed w s hf
    refine ⟨respond (performedValue i s) (perform i s), emitted i s, perform_out i s, fun o => ?_⟩
    rw [acceptWord_of_ok w _ i hd, exec_of_performed i _ ((execFault_withOut i s o).trans hi),
      performedValue_withOut, perform_withOut]
    rfl

theorem acceptWord_out_prefix (w : CmdWord) (s t : State) (h : acceptWord w s = .next t) : s.out <+: t.out := by
  obtain ⟨u, bs, -, hu⟩ := acceptWord_withOut w s
  have hs : acceptWord w s = .next { u with out := s.out ++ bs } := hu s.out
  rw [hs] at h
  cases h
  exact List.prefix_append s.out bs

/-! ## The obligations -/

/-- Settles O25, by the cases of a step: a command word is refused or performed, and either keeps the invariant. -/
theorem stepKeepsStateInvariant : Obligations.StepKeepsStateInvariant := by
  unfold Obligations.StepKeepsStateInvariant
  intro s t h ht
  rcases step_cases s with ⟨-, hs⟩ | ⟨rest, hp, hs⟩ | ⟨w, rest, -, hs⟩
  · rw [hs] at ht; cases ht
    exact ⟨h, fun _ => List.prefix_rfl⟩
  · rw [hs] at ht; cases ht
    exact ⟨.of_running _ rfl (.inl ⟨rfl, rfl⟩), fun hpower => absurd hp (hpower rest)⟩
  · rw [hs] at ht
    exact ⟨acceptWord_inv w { s with port := rest } t h ht,
      fun _ => acceptWord_out_prefix w { s with port := rest } t ht⟩

/-- Settles O8: a refused command has the frame of fault entry, a performed one the frame of `perform`. -/
theorem commandsWriteOnlyTheirElements : Obligations.CommandsWriteOnlyTheirElements := by
  unfold Obligations.CommandsWriteOnlyTheirElements
  intro i s t h
  rcases exec_next_cases i s t h with ⟨c, -, rfl⟩ | ⟨-, rfl⟩
  · obtain ⟨hcrc, hrem, hout, hport, hphase, hresponses⟩ := raiseFault_frame c s
    have hcode : lastCode (raiseFault c s) ≠ some 0#4 := by simpa using faultCode_ne_zero c
    have herr : (raiseFault c s).err ≠ s.err → s.phase ≠ .fault :=
      fun hne hp => hne (by rw [raiseFault_of_fault c s hp])
    exact ⟨hport, ⟨_, hresponses⟩, fun p _ => by rw [hout], fun hne => absurd hcrc hne, fun hne => absurd hrem hne,
      fun _ => .inl ⟨hcode, hphase⟩, fun hne => .inl ⟨hcode, herr hne⟩, fun hne => absurd hout hne⟩
  · obtain ⟨hport, hresponses⟩ := perform_frame i s
    have hcode := lastCode_respond (performedValue i s) (perform i s)
    refine ⟨hport, ⟨respWord 0#4 (performedValue i s), by rw [respond_responses, hresponses]⟩, fun p hp => ?_,
      fun hne => ⟨hcode, perform_crc_ne i s hne⟩, fun hne => ⟨hcode, perform_rem_or_phase_ne i s (.inl hne)⟩,
      fun hne => .inr ⟨hcode, perform_rem_or_phase_ne i s (.inr hne)⟩, fun hne => ?_,
      fun hne => ⟨hcode, perform_out_ne i s hne⟩⟩
    · rw [respond_out, perform_out, List.getElem?_append_left hp]
    · exact .inr (not_not.1 fun hi => hne (perform_err i s hi))

/-- Settles O9: that a command word only appends is `acceptWord_withOut`. -/
theorem outIsAppendOnlyAndNeverRead : Obligations.OutIsAppendOnlyAndNeverRead := by
  unfold Obligations.OutIsAppendOnlyAndNeverRead
  refine ⟨rfl, fun s w => acceptWord_withOut w s, fun s t h => ?_⟩
  cases h
  rfl

/-- Settles O24: RESET answers `resetRegisters`. -/
theorem resetValues : Obligations.ResetValues := by
  unfold Obligations.ResetValues
  refine ⟨rfl, rfl, rfl, rfl, rfl, fun s t h => ?_⟩
  cases h
  simp [State.reset, Config.seed]

end Sys2Proof.Machine
end

section
/-! SUPPORT. The word of a command decodes to it (30_encoding.md sections 2 and 5). -/

namespace Sys2Proof

@[simp] theorem dataByte_fieldOfByte (d : Byte) : dataByte (fieldOfByte d) = d := by
  rw [dataByte, fieldOfByte, ← BitVec.setWidth_eq_extractLsb' (by decide), BitVec.setWidth_setWidth_of_le d (by decide),
    BitVec.setWidth_eq]

@[simp] theorem reservedHigh_fieldOfByte (d : Byte) : reservedHigh (fieldOfByte d) = 0#24 := by
  ext k hk
  simp [reservedHigh, fieldOfByte]

@[simp] theorem tagOfField_fieldOfTag (t : Tag) : tagOfField (fieldOfTag t) = t := by
  simp (disch := decide) only [tagOfField, fieldOfTag, BitVec.extractLsb'_append_eq_of_le,
    BitVec.extractLsb'_append_eq_of_add_le, Nat.reduceSub, BitVec.extractLsb'_eq_self]

theorem decode_encode (i : Instr) : decode (encode i) = .ok i := by
  cases i with
  | reset | status | crcInit | crcRead => simp [decode, encode, decodePlain]
  | crcByte d | chunkData d => simp [decode, encode, decodeByte]
  | chunkStart tag n => simp [decode, encode]

end Sys2Proof
end

section
/-! SUPPORT. The command sequence of one chunk, run from an IDLE state (41_chunk.md R109). -/

namespace Sys2Proof.Machine

theorem crcBytes_append (c : Word) (s t : List Byte) : crcBytes c (s ++ t) = crcBytes (crcBytes c s) t := by
  induction s generalizing c with
  | nil => rfl
  | cons d s ih => exact ih (crcUpdate c d)

/-- One step on a command that passes every check. -/
theorem run_one_of_performed (i : Instr) (s : State) (rest : List Event)
    (hp : s.port = .command (encode i) :: rest) (hf : execFault i { s with port := rest } = none) :
    run 1 s = .next (respond (performedValue i { s with port := rest }) (perform i { s with port := rest })) := by
  refine (run_command 0 s _ (encode i) rest hp ?_).trans (run_zero _)
  rw [acceptWord_of_ok _ _ i (decode_encode i), exec_of_performed i _ hf]

/-- From `s`, after CHUNK_START and `k` of the CHUNK_DATA commands of a chunk with more than `k` payload bytes:
`run_chunkOpened`. -/
def chunkOpened (s : State) (tag : Tag) (payload : List Byte) (rest : List Event) (k : Nat) : State :=
  { s with
    port := commandEvents ((payload.drop k).map .chunkData) ++ rest, phase := .payload,
    rem := BitVec.ofNat 32 (payload.length - k),
    crc := crcBytes Config.seed (tagBytes tag ++ payload.take k),
    out := s.out ++ be32 (BitVec.ofNat 32 payload.length) ++ tagBytes tag ++ payload.take k,
    responses := s.responses ++ chunkResponses payload.length k }

/-- From the IDLE state `s`, after all commands of a chunk: `run_chunkCommands`. -/
def chunkClosed (s : State) (tag : Tag) (payload : List Byte) (rest : List Event) : State :=
  { s with
    port := rest, rem := 0#32, crc := crcBytes Config.seed (tagBytes tag ++ payload),
    phase := .idle,
    out := s.out ++ makeChunk tag payload,
    responses := s.responses ++ chunkResponses payload.length payload.length }

theorem chunkResponses_succ (n k : Nat) :
    chunkResponses n (k + 1) = chunkResponses n k ++ [respWord 0#4 (BitVec.ofNat 32 (n - (k + 1)))] := by
  simp [chunkResponses, List.range_succ]

theorem ofNat_sub_one (m : Nat) (hm : m < 2 ^ 32) (h0 : m ≠ 0) :
    BitVec.ofNat 32 m - 1#32 = BitVec.ofNat 32 (m - 1) := by
  bv_omega

section
variable (s : State) (tag : Tag) (payload : List Byte) (rest : List Event)

theorem run_chunkStart_nil (hs : s.phase = .idle) (ht : tag.wellFormed = true)
    (hp : s.port = commandEvents (chunkCommands tag []) ++ rest) :
    run 1 s = .next (chunkClosed s tag [] rest) := by
  rw [run_one_of_performed (.chunkStart tag 0#32) s rest hp ((execFault_chunkStart_eq_none_iff _ _ _).2 ⟨hs, ht⟩)]
  simp [performedValue, perform, openChunk_zero, chunkClosed, respond, answer, makeChunk, chunkResponses]

theorem run_chunkStart (hs : s.phase = .idle) (ht : tag.wellFormed = true) (hl : payload.length ≤ 2 ^ 32 - 1)
    (hne : payload ≠ []) (hp : s.port = commandEvents (chunkCommands tag payload) ++ rest) :
    run 1 s = .next (chunkOpened s tag payload rest 0) := by
  have hn : BitVec.ofNat 32 payload.length ≠ 0#32 := by
    have := List.length_pos_iff.2 hne
    bv_omega
  rw [run_one_of_performed (.chunkStart tag (BitVec.ofNat 32 payload.length)) s _ hp
    ((execFault_chunkStart_eq_none_iff _ _ _).2 ⟨hs, ht⟩)]
  simp [performedValue, perform, openChunk_pos, hn, chunkOpened, respond, answer, chunkResponses, commandEvents]

theorem run_chunkData (d : Byte) (hs : s.phase = .payload)
    (hp : s.port = .command (encode (.chunkData d)) :: rest) :
    run 1 s = .next (respond (feedChunk d { s with port := rest }).rem (feedChunk d { s with port := rest })) :=
  run_one_of_performed (.chunkData d) s rest hp ((execFault_chunkData_eq_none_iff _ _).2 hs)

theorem chunkOpened_port (k : Nat) (hk : k < payload.length) :
    (chunkOpened s tag payload rest k).port =
      .command (encode (.chunkData payload[k])) :: (commandEvents ((payload.drop (k + 1)).map .chunkData) ++ rest) := by
  simp only [chunkOpened]
  rw [List.drop_eq_getElem_cons hk]
  rfl

theorem crcUpdate_crcBytes_take (c : Word) (front : List Byte) (k : Nat) (hk : k < payload.length) :
    crcUpdate (crcBytes c (front ++ payload.take k)) payload[k] = crcBytes c (front ++ payload.take (k + 1)) := by
  rw [← List.take_append_getElem hk, ← List.append_assoc, crcBytes_append c _ [payload[k]]]
  rfl

theorem run_chunkData_more (k : Nat) (hl : payload.length ≤ 2 ^ 32 - 1) (hk : k + 1 < payload.length) :
    run 1 (chunkOpened s tag payload rest k) = .next (chunkOpened s tag payload rest (k + 1)) := by
  have hk' : k < payload.length := by omega
  have hr : BitVec.ofNat 32 (payload.length - k) ≠ 1#32 := by bv_omega
  have hrem := ofNat_sub_one (payload.length - k) (by omega) (by omega)
  rw [run_chunkData _ _ _ rfl (chunkOpened_port s tag payload rest k hk'), feedChunk_more _ _ hr]
  simp [chunkOpened, respond, answer, chunkResponses_succ, crcUpdate_crcBytes_take, hrem, Nat.sub_sub]

theorem run_chunkData_last (k : Nat) (hk : k + 1 = payload.length) :
    run 1 (chunkOpened s tag payload rest k) = .next (chunkClosed s tag payload rest) := by
  have hk' : k < payload.length := by omega
  have hr : BitVec.ofNat 32 (payload.length - k) = 1#32 := by
    rw [← hk, Nat.add_sub_cancel_left]
  have htake : payload.take (k + 1) = payload := by rw [hk, List.take_length]
  have hdrop : (payload.map Instr.chunkData).drop (k + 1) = [] := by simp [hk]
  have hout (bs : List Byte) : payload.take k ++ payload[k] :: bs = payload ++ bs := by
    rw [← List.singleton_append, ← List.append_assoc, List.take_append_getElem hk', htake]
  have hresponses : chunkResponses payload.length k ++ [respWord 0#4 0#32] =
      chunkResponses payload.length payload.length := by
    rw [← hk, chunkResponses_succ, Nat.sub_self]
  rw [run_chunkData _ _ _ rfl (chunkOpened_port s tag payload rest k hk'), feedChunk_last _ _ hr]
  simp [chunkOpened, chunkClosed, respond, answer, makeChunk, crc32, crcUpdate_crcBytes_take, htake, hdrop, hout,
    hresponses]

theorem run_chunkOpened (hs : s.phase = .idle) (ht : tag.wellFormed = true) (hl : payload.length ≤ 2 ^ 32 - 1)
    (hp : s.port = commandEvents (chunkCommands tag payload) ++ rest) (k : Nat) (hk : k < payload.length) :
    run (k + 1) s = .next (chunkOpened s tag payload rest k) := by
  induction k with
  | zero => exact run_chunkStart s tag payload rest hs ht hl (List.length_pos_iff.1 hk) hp
  | succ k ih =>
    rw [run_add (k + 1) 1 s _ (ih (by omega)), run_chunkData_more s tag payload rest k hl hk]

/-- From an IDLE state the commands of a chunk append exactly `makeChunk` and end in IDLE. -/
theorem run_chunkCommands (hs : s.phase = .idle) (ht : tag.wellFormed = true) (hl : payload.length ≤ 2 ^ 32 - 1)
    (hp : s.port = commandEvents (chunkCommands tag payload) ++ rest) :
    run (payload.length + 1) s = .next (chunkClosed s tag payload rest) := by
  cases hn : payload.length with
  | zero =>
    cases List.length_eq_zero_iff.1 hn
    exact run_chunkStart_nil s tag rest hs ht hp
  | succ k =>
    rw [run_add (k + 1) 1 s _ (run_chunkOpened s tag payload rest hs ht hl hp k (by omega)),
      run_chunkData_last s tag payload rest k hn.symm]

end

/-- Settles O30: both runs end as `run_chunkCommands` says, with the bytes of `makeChunk` appended. -/
theorem chunkBytesIndependentOfPast : Obligations.ChunkBytesIndependentOfPast := by
  unfold Obligations.ChunkBytesIndependentOfPast
  intro s u tag payload hs hu ht hfits hps hpu
  have hl := (payloadFits_iff payload).1 hfits
  refine ⟨chunkClosed s tag payload [], chunkClosed u tag payload [], makeChunk tag payload, ?_, ?_, rfl, rfl, rfl, rfl⟩
  · exact run_chunkCommands s tag payload [] hs ht hl (by rw [hps, List.append_nil])
  · exact run_chunkCommands u tag payload [] hu ht hl (by rw [hpu, List.append_nil])

end Sys2Proof.Machine
end

section
/-! SUPPORT. OUT as a sequence of segments (20_memory.md R36): what appends a segment to it, how a chunk is opened, fed,
or closed, and how many bytes a command emits (20_memory.md R37). -/

namespace Sys2Proof.Machine

/-! ## Segments -/

/-- The bytes are those of sound segments, one after the other: OUT outside PAYLOAD (`framed_iff_of_not_payload`). -/
def Segmented (out : List Byte) : Prop :=
  ∃ segs : List Segment, (∀ g ∈ segs, g.sound = true) ∧ out = segmentsBytes segs

/-- The open chunk of a state in PAYLOAD, behind the bytes `front` (`framed_iff_of_payload`). -/
structure State.OpenChunk (s : State) (front : List Byte) (tag : Tag) (n : Word) (sent : List Byte) : Prop where
  tag_wellFormed : tag.wellFormed = true
  rem_ne_zero : s.rem ≠ 0#32
  sent_add_rem : sent.length + s.rem.toNat = n.toNat
  crc_eq : s.crc = crcBytes Config.seed (tagBytes tag ++ sent)
  out_eq : s.out = front ++ openBytes tag n sent

theorem segmented_nil : Segmented [] := ⟨[], by simp, rfl⟩

theorem Segmented.append_bytes {out : List Byte} (h : Segmented out) (g : Segment) (hg : g.sound = true) :
    Segmented (out ++ g.bytes) := by
  obtain ⟨segs, hsound, rfl⟩ := h
  refine ⟨segs ++ [g], fun g' hg' => ?_, by simp [segmentsBytes]⟩
  rcases List.mem_append.1 hg' with hmem | hmem
  · exact hsound g' hmem
  · rwa [List.mem_singleton.1 hmem]

theorem framed_iff_of_not_payload (s : State) (hp : s.phase ≠ .payload) : s.Framed ↔ Segmented s.out := by
  cases h : s.phase with
  | payload => exact absurd h hp
  | idle | fault => simp only [State.Framed, Segmented, h]

theorem framed_of_idle (s : State) (hp : s.phase = .idle) (h : Segmented s.out) : s.Framed :=
  (framed_iff_of_not_payload s (by simp [hp])).2 h

theorem framed_iff_of_payload (s : State) (hp : s.phase = .payload) :
    s.Framed ↔ ∃ front tag n sent, Segmented front ∧ s.OpenChunk front tag n sent := by
  simp only [State.Framed, hp]
  constructor
  · rintro ⟨segs, hsound, tag, n, sent, htag, hrem, hlen, hcrc, hout⟩
    exact ⟨segmentsBytes segs, tag, n, sent, ⟨segs, hsound, rfl⟩, htag, hrem, hlen, hcrc, hout⟩
  · rintro ⟨_, tag, n, sent, ⟨segs, hsound, rfl⟩, htag, hrem, hlen, hcrc, hout⟩
    exact ⟨segs, hsound, tag, n, sent, htag, hrem, hlen, hcrc, hout⟩

theorem State.OpenChunk.orphan_sound {s : State} {front : List Byte} {tag : Tag} {n : Word} {sent : List Byte}
    (h : s.OpenChunk front tag n sent) : (Segment.orphan tag n sent).sound = true := by
  have hlen := h.sent_add_rem
  have hrem := h.rem_ne_zero
  simp only [Segment.sound, h.tag_wellFormed, Bool.true_and, decide_eq_true_eq]
  bv_omega

/-- An open chunk that is lost leaves an orphan, so OUT is segmented in every phase. -/
theorem State.Framed.segmented {s : State} (h : s.Framed) : Segmented s.out := by
  by_cases hp : s.phase = .payload
  · obtain ⟨front, tag, n, sent, hfront, hopen⟩ := (framed_iff_of_payload s hp).1 h
    rw [hopen.out_eq]
    exact hfront.append_bytes _ hopen.orphan_sound
  · exact (framed_iff_of_not_payload s hp).1 h

/-! ## Opening, feeding and closing a chunk -/

theorem crcBytes_concat (c : Word) (s : List Byte) (d : Byte) : crcBytes c (s ++ [d]) = crcUpdate (crcBytes c s) d :=
  crcBytes_append c s [d]

theorem openBytes_concat (tag : Tag) (n : Word) (sent : List Byte) (d : Byte) :
    openBytes tag n (sent ++ [d]) = openBytes tag n sent ++ [d] := by
  simp [openBytes]

theorem makeChunk_eq_openBytes (tag : Tag) (n : Word) (payload : List Byte) (h : payload.length = n.toNat) :
    makeChunk tag payload = openBytes tag n payload ++ be32 (crc32 (tagBytes tag ++ payload)) := by
  simp [makeChunk, openBytes, h]

theorem whole_sound (tag : Tag) (n : Word) (payload : List Byte) (ht : tag.wellFormed = true)
    (h : payload.length = n.toNat) : (Segment.whole tag payload).sound = true := by
  have hfits : payloadFits payload = true := (payloadFits_iff payload).2 (by rw [h]; exact Nat.le_pred_of_lt n.isLt)
  simp [Segment.sound, ht, hfits]

theorem openChunk_framed (tag : Tag) (n : Word) (s : State) (ht : tag.wellFormed = true) (h : Segmented s.out) :
    (openChunk tag n s).Framed := by
  by_cases hn : n = 0#32
  · subst hn
    rw [openChunk_zero]
    have hwhole := h.append_bytes _ (whole_sound tag 0#32 [] ht rfl)
    exact framed_of_idle _ rfl (by simpa [Segment.bytes, makeChunk] using hwhole)
  · rw [openChunk_pos tag n s hn, framed_iff_of_payload _ rfl]
    exact ⟨s.out, tag, n, [], h, ht, hn, by simp, by simp, by simp [openBytes]⟩

/-- The last payload byte: the open chunk becomes a whole one. -/
theorem feedChunk_last_framed (d : Byte) (s : State) {front : List Byte} {tag : Tag} {n : Word} {sent : List Byte}
    (hfront : Segmented front) (h : s.OpenChunk front tag n sent) (hr : s.rem = 1#32) : (feedChunk d s).Framed := by
  have hlen : (sent ++ [d]).length = n.toNat := by simp [← h.sent_add_rem, hr]
  have hcrc : not32 (crcUpdate s.crc d) = crc32 (tagBytes tag ++ (sent ++ [d])) := by
    rw [h.crc_eq, ← crcBytes_concat, List.append_assoc, crc32]
  have hout : s.out ++ d :: be32 (not32 (crcUpdate s.crc d)) = front ++ makeChunk tag (sent ++ [d]) := by
    rw [hcrc, h.out_eq, makeChunk_eq_openBytes tag n _ hlen, openBytes_concat]
    simp
  rw [feedChunk_last d s hr, hout]
  exact framed_of_idle _ rfl (hfront.append_bytes _ (whole_sound tag n _ h.tag_wellFormed hlen))

/-- Any other payload byte: the chunk stays open. -/
theorem feedChunk_more_openChunk (d : Byte) (s : State) {front : List Byte} {tag : Tag} {n : Word} {sent : List Byte}
    (h : s.OpenChunk front tag n sent) (hr : s.rem ≠ 1#32) : (feedChunk d s).OpenChunk front tag n (sent ++ [d]) := by
  have hrem := h.rem_ne_zero
  have hlen := h.sent_add_rem
  rw [feedChunk_more d s hr]
  exact {
    tag_wellFormed := h.tag_wellFormed
    rem_ne_zero := fun hz => hr (by bv_omega)
    sent_add_rem := by rw [List.length_append, List.length_singleton]; bv_omega
    crc_eq := by rw [h.crc_eq, ← List.append_assoc, crcBytes_concat]
    out_eq := by rw [h.out_eq, openBytes_concat, List.append_assoc] }

theorem feedChunk_framed (d : Byte) (s : State) (hp : s.phase = .payload) (h : s.Framed) : (feedChunk d s).Framed := by
  obtain ⟨front, tag, n, sent, hfront, hopen⟩ := (framed_iff_of_payload s hp).1 h
  by_cases hr : s.rem = 1#32
  · exact feedChunk_last_framed d s hfront hopen hr
  · have hphase : (feedChunk d s).phase = .payload := by rw [feedChunk_more d s hr, hp]
    exact (framed_iff_of_payload _ hphase).2
      ⟨front, tag, n, sent ++ [d], hfront, feedChunk_more_openChunk d s hopen hr⟩

/-! ## Commands keep OUT framed -/

theorem raiseFault_framed (c : FaultCode) (s : State) (h : s.Framed) : (raiseFault c s).Framed := by
  obtain ⟨-, -, hout, -, hphase, -⟩ := raiseFault_frame c s
  rw [framed_iff_of_not_payload _ (by simp [hphase]), hout]
  exact h.segmented

theorem perform_framed (i : Instr) (s : State) (h : s.Framed) (hf : execFault i s = none) : (perform i s).Framed := by
  cases i with
  | reset => exact framed_of_idle _ rfl h.segmented
  | status | crcRead => exact h
  | crcInit | crcByte d =>
    have hp : s.phase = .idle := (phaseFault_eq_none_iff .idle s nofun).1 hf
    exact framed_of_idle _ hp h.segmented
  | chunkStart tag n =>
    obtain ⟨-, ht⟩ := (execFault_chunkStart_eq_none_iff tag n s).1 hf
    exact openChunk_framed tag n s ht h.segmented
  | chunkData d => exact feedChunk_framed d s ((execFault_chunkData_eq_none_iff d s).1 hf) h

theorem acceptWord_framed (w : CmdWord) (s t : State) (h : s.Framed) (ht : acceptWord w s = .next t) : t.Framed := by
  cases hf : wordFault w s with
  | some c =>
    rw [acceptWord_of_refused w s c hf] at ht; cases ht
    exact raiseFault_framed c s h
  | none =>
    obtain ⟨i, -, hi, hw⟩ := acceptWord_of_performed w s hf
    rw [hw] at ht; cases ht
    exact perform_framed i s h hi

/-! ## The obligations -/

/-- Settles O27, by the cases of a step: a lost open chunk becomes an orphan, a fed one grows or becomes whole. -/
theorem stepKeepsOutFramed : Obligations.StepKeepsOutFramed := by
  unfold Obligations.StepKeepsOutFramed
  intro s t h ht
  rcases step_cases s with ⟨-, hs⟩ | ⟨rest, -, hs⟩ | ⟨w, rest, -, hs⟩
  · rw [hs] at ht; cases ht
    exact h
  · rw [hs] at ht; cases ht
    exact framed_of_idle _ rfl segmented_nil
  · rw [hs] at ht
    exact acceptWord_framed w { s with port := rest } t h ht

theorem emitted_chunkStart_length (tag : Tag) (n : Word) (s : State) :
    (emitted (.chunkStart tag n) s).length = if n = 0#32 then 12 else 8 := by
  by_cases hn : n = 0#32 <;> simp [emitted, hn]

theorem emitted_chunkData_length (d : Byte) (s : State) :
    (emitted (.chunkData d) s).length = if s.rem = 1#32 then 5 else 1 := by
  by_cases hr : s.rem = 1#32 <;> simp [emitted, hr]

/-- Settles O10: a refused command leaves OUT alone, a performed one appends `emitted`. -/
theorem emittedByteCounts : Obligations.EmittedByteCounts := by
  unfold Obligations.EmittedByteCounts
  intro i s t h _
  rcases exec_next_cases i s t h with ⟨c, -, rfl⟩ | ⟨-, rfl⟩
  · obtain ⟨-, -, hout, -⟩ := raiseFault_frame c s
    have hcode : lastCode (raiseFault c s) ≠ some 0#4 := by simpa using faultCode_ne_zero c
    rw [hout, if_neg hcode, Nat.add_zero]
  · rw [respond_out, perform_out, List.length_append, if_pos (lastCode_respond _ _)]
    cases i with
    | reset | status | crcInit | crcByte d | crcRead => rfl
    | chunkStart tag n => rw [emitted_chunkStart_length]
    | chunkData d => rw [emitted_chunkData_length]

/-- Settles O31: what `emit_u32_be` appends is `emitU32_eq`. -/
theorem be32IsMostSignificantFirst : Obligations.Be32IsMostSignificantFirst := by
  unfold Obligations.Be32IsMostSignificantFirst
  exact ⟨fun _ => rfl, fun _ _ => rfl, fun v s => by rw [emitU32_eq], by decide, by decide⟩

end Sys2Proof.Machine
end

section
/-! SUPPORT. The encodings: every word is the word of its fields, a word decodes to a command exactly when it is the
command's word, and the rows of the opcode map (30_encoding.md sections 2, 5 and 7). -/

namespace Sys2Proof

open Sys2Proof.Machine

/-! ## The fields of a word -/

theorem cmdWord_fields (w : CmdWord) : cmdWord (opField w) (aField w) (bField w) = w := by
  rw [cmdWord, opField, aField, bField,
    BitVec.extractLsb'_append_extractLsb'_eq_extractLsb' (show 64 = 32 + 32 from rfl),
    BitVec.extractLsb'_append_extractLsb'_eq_extractLsb' (show 32 = 0 + 32 from rfl)]
  exact BitVec.extractLsb'_eq_self

theorem fieldOfTag_tagOfField (a : Word) : fieldOfTag (tagOfField a) = a := by
  rw [fieldOfTag, tagOfField,
    BitVec.extractLsb'_append_extractLsb'_eq_extractLsb' (show 24 = 16 + 8 from rfl),
    BitVec.extractLsb'_append_extractLsb'_eq_extractLsb' (show 16 = 8 + 8 from rfl),
    BitVec.extractLsb'_append_extractLsb'_eq_extractLsb' (show 8 = 0 + 8 from rfl)]
  exact BitVec.extractLsb'_eq_self

theorem fieldOfByte_dataByte (b : Word) (h : reservedHigh b = 0#24) : fieldOfByte (dataByte b) = b :=
  calc fieldOfByte (dataByte b)
    _ = reservedHigh b ++ dataByte b := by rw [h]; exact BitVec.setWidth_eq_append (by decide)
    _ = b := (BitVec.extractLsb'_append_extractLsb'_eq_extractLsb' rfl).trans BitVec.extractLsb'_eq_self

/-! ## Decoding -/

theorem encode_of_decodePlain (w : CmdWord) (i j : Instr) (hi : encode i = cmdWord (opField w) 0#32 0#32)
    (h : decodePlain (aField w) (bField w) i = .ok j) : encode j = w := by
  unfold decodePlain at h
  split at h
  next hz =>
    obtain ⟨ha, hb⟩ := hz
    cases h
    have hw := cmdWord_fields w
    rw [ha, hb] at hw
    rw [hi, hw]
  next => cases h

theorem encode_of_decodeByte (w : CmdWord) (mk : Byte → Instr) (j : Instr)
    (hmk : ∀ d, encode (mk d) = cmdWord (opField w) 0#32 (fieldOfByte d))
    (h : decodeByte (aField w) (bField w) mk = .ok j) : encode j = w := by
  unfold decodeByte at h
  split at h
  next hz =>
    obtain ⟨ha, hb⟩ := hz
    cases h
    rw [hmk, fieldOfByte_dataByte _ hb, ← ha, cmdWord_fields]
  next => cases h

theorem encode_of_decode (w : CmdWord) (i : Instr) (h : decode w = .ok i) : encode i = w := by
  unfold decode at h
  split_ifs at h with hop hop hop hop hop hop hop
  · exact encode_of_decodePlain w .reset i (by rw [hop]; rfl) h
  · exact encode_of_decodePlain w .status i (by rw [hop]; rfl) h
  · exact encode_of_decodePlain w .crcInit i (by rw [hop]; rfl) h
  · exact encode_of_decodeByte w .crcByte i (fun d => by rw [hop]; rfl) h
  · exact encode_of_decodePlain w .crcRead i (by rw [hop]; rfl) h
  · cases h
    rw [encode, fieldOfTag_tagOfField, ← hop, cmdWord_fields]
  · exact encode_of_decodeByte w .chunkData i (fun d => by rw [hop]; rfl) h

theorem decode_eq_ok_iff (w : CmdWord) (i : Instr) : decode w = .ok i ↔ w = encode i :=
  ⟨fun h => (encode_of_decode w i h).symm, fun h => h ▸ decode_encode i⟩

/-! ## Checks 1 and 2 -/

@[simp] theorem reservedClear_encode (i : Instr) : reservedClear (encode i) = true := by
  cases i <;> simp [reservedClear, encode]

/-- A word is a command exactly when its opcode is defined and its reserved bits are zero (30_encoding.md R57, R58). -/
theorem exists_decode_eq_ok_iff (w : CmdWord) :
    (∃ i, decode w = .ok i) ↔
      opField w ∈ [0x01#8, 0x02#8, 0x10#8, 0x11#8, 0x12#8, 0x20#8, 0x21#8] ∧ reservedClear w = true := by
  constructor
  · rintro ⟨i, hi⟩
    rw [← encode_of_decode w i hi]
    exact ⟨by cases i <;> simp [encode], reservedClear_encode i⟩
  · rintro ⟨hop, hclear⟩
    simp only [List.mem_cons, List.not_mem_nil, or_false] at hop
    rcases hop with hop | hop | hop | hop | hop | hop | hop <;>
      simp_all [reservedClear, decode, decodePlain, decodeByte]

/-! ## The rows of the opcode map -/

theorem row_mem_opcodeMap (i : Instr) : i.row ∈ opcodeMap := by
  cases i <;> simp [opcodeMap, Instr.row]

/-- The family `MatchesRow`, for every command. -/
theorem encode_and_mask (i : Instr) : encode i &&& i.row.mask = i.row.pattern := by
  cases i with
  | reset => exact Laws.MatchesRow.reset
  | status => exact Laws.MatchesRow.status
  | crcInit => exact Laws.MatchesRow.crcInit
  | crcByte d => exact Laws.MatchesRow.crcByte d
  | crcRead => exact Laws.MatchesRow.crcRead
  | chunkStart tag n => exact Laws.MatchesRow.chunkStart tag n
  | chunkData d => exact Laws.MatchesRow.chunkData d

/-- Under a mask of whole fields and of the reserved bits, the fields are masked one by one. -/
theorem cmdWord_and (op op' : Byte) (a a' b b' : Word) :
    cmdWord op a b &&& cmdWord op' a' b' = cmdWord (op &&& op') (a &&& a') (b &&& b') := by
  rw [cmdWord, cmdWord, cmdWord, BitVec.and_append, BitVec.and_append]

theorem fields_of_masked (w : CmdWord) (op : Byte) (ma mb : Word)
    (h : w &&& cmdWord 0xFF#8 ma mb = cmdWord op 0#32 0#32) :
    opField w = op ∧ aField w &&& ma = 0#32 ∧ bField w &&& mb = 0#32 := by
  rw [← cmdWord_fields w, cmdWord_and, show (0xFF#8 : Byte) = BitVec.allOnes 8 from rfl, BitVec.and_allOnes] at h
  have hop := congrArg opField h
  have ha := congrArg aField h
  have hb := congrArg bField h
  simp only [opField_cmdWord, aField_cmdWord, bField_cmdWord] at hop ha hb
  exact ⟨hop, ha, hb⟩

theorem reservedHigh_of_masked (b : Word) (h : b &&& 0xFFFFFF00#32 = 0#32) : reservedHigh b = 0#24 := by
  have hhigh := congrArg reservedHigh h
  rwa [reservedHigh, BitVec.extractLsb'_and,
    show (0xFFFFFF00#32).extractLsb' 8 24 = BitVec.allOnes 24 by decide, BitVec.and_allOnes] at hhigh

theorem eq_of_fullMask (w p : CmdWord) (h : w &&& 0xFFFFFFFFFFFFFFFFFF#72 = p) : w = p := by
  rwa [show (0xFFFFFFFFFFFFFFFFFF#72 : CmdWord) = BitVec.allOnes 72 from rfl, BitVec.and_allOnes] at h

/-- A word with the pattern of a data byte's row is the word of its data byte. -/
theorem eq_cmdWord_of_byteMask (w : CmdWord) (op : Byte)
    (h : w &&& 0xFFFFFFFFFFFFFFFF00#72 = cmdWord op 0#32 0#32) :
    w = cmdWord op 0#32 (fieldOfByte (dataByte (bField w))) := by
  rw [show (0xFFFFFFFFFFFFFFFF00#72 : CmdWord) = cmdWord 0xFF#8 (BitVec.allOnes 32) 0xFFFFFF00#32 by decide] at h
  obtain ⟨hop, ha, hb⟩ := fields_of_masked w op _ _ h
  rw [BitVec.and_allOnes] at ha
  rw [fieldOfByte_dataByte _ (reservedHigh_of_masked _ hb), ← hop, ← ha, cmdWord_fields]

/-- A word with the pattern of CHUNK_START is the word of its tag and length, whatever they are. -/
theorem eq_encode_of_opcodeMask (w : CmdWord) (h : w &&& 0xFF0000000000000000#72 = 0x200000000000000000#72) :
    w = encode (.chunkStart (tagOfField (aField w)) (bField w)) := by
  rw [show (0xFF0000000000000000#72 : CmdWord) = cmdWord 0xFF#8 0#32 0#32 by decide,
    show (0x200000000000000000#72 : CmdWord) = cmdWord 0x20#8 0#32 0#32 by decide] at h
  obtain ⟨hop, -, -⟩ := fields_of_masked w 0x20#8 _ _ h
  rw [encode, fieldOfTag_tagOfField, ← hop, cmdWord_fields]

theorem exists_eq_encode_of_masked (w : CmdWord) (row : OpcodeRow) (hrow : row ∈ opcodeMap)
    (h : w &&& row.mask = row.pattern) : ∃ i, w = encode i ∧ i.row = row := by
  simp only [opcodeMap, List.mem_cons, List.not_mem_nil, or_false] at hrow
  rcases hrow with rfl | rfl | rfl | rfl | rfl | rfl | rfl
  · exact ⟨.reset, eq_of_fullMask w _ h, rfl⟩
  · exact ⟨.status, eq_of_fullMask w _ h, rfl⟩
  · exact ⟨.crcInit, eq_of_fullMask w _ h, rfl⟩
  · exact ⟨.crcByte (dataByte (bField w)), eq_cmdWord_of_byteMask w 0x11#8 h, rfl⟩
  · exact ⟨.crcRead, eq_of_fullMask w _ h, rfl⟩
  · exact ⟨.chunkStart (tagOfField (aField w)) (bField w), eq_encode_of_opcodeMask w h, rfl⟩
  · exact ⟨.chunkData (dataByte (bField w)), eq_cmdWord_of_byteMask w 0x21#8 h, rfl⟩

theorem be32_eq_tagBytes_tagOfField (a : Word) : be32 a = tagBytes (tagOfField a) := rfl

/-- Settles O18: a word that matches a row is the word of a command of that row (`exists_eq_encode_of_masked`), and a
word that decodes is the word of its command (`decode_eq_ok_iff`). -/
theorem wordMatchesRowExactlyWhenCommand : Obligations.WordMatchesRowExactlyWhenCommand := by
  unfold Obligations.WordMatchesRowExactlyWhenCommand
  refine ⟨rfl, fun w row hrow => ⟨fun h => ?_, ?_⟩, fun w i hi => ?_⟩
  · obtain ⟨i, rfl, hi⟩ := exists_eq_encode_of_masked w row hrow h
    exact ⟨i, decode_encode i, hi⟩
  · rintro ⟨i, hi, rfl⟩
    rw [(decode_eq_ok_iff w i).1 hi, encode_and_mask]
  · rw [(decode_eq_ok_iff w i).1 hi]
    refine ⟨row_mem_opcodeMap i, ?_⟩
    cases i with
    | reset | status | crcInit | crcRead => exact opField_cmdWord _ _ _
    | crcByte d | chunkData d =>
      refine ⟨opField_cmdWord _ _ _, ?_⟩
      rw [encode, bField_cmdWord]
      exact (dataByte_fieldOfByte d).symm
    | chunkStart tag n =>
      refine ⟨opField_cmdWord _ _ _, ?_, (bField_cmdWord _ _ _).symm⟩
      rw [encode, aField_cmdWord, be32_eq_tagBytes_tagOfField, tagOfField_fieldOfTag, tagBytes]

end Sys2Proof
end

section
/-! SUPPORT. The answer of a command word: the order of the checks, the one response, and that every step answers
(30_encoding.md R53, R56, R58). -/

namespace Sys2Proof.Machine

/-! ## The checks in their order -/

theorem expectedFault_of_no_command (w : CmdWord) (p : Phase) (h : ¬∃ i, decode w = .ok i) :
    expectedFault w p = some .eOpcode := by
  rw [exists_decode_eq_ok_iff, not_and] at h
  unfold expectedFault
  split
  next => rfl
  next hop => rw [if_pos (Bool.eq_false_iff.2 (h (not_not.1 hop)))]

theorem exists_mem_tagBytes_iff (t : Tag) : (∃ b ∈ tagBytes t, 0x7F#8 < b) ↔ tagRefused t = true := by
  simp only [tagRefused, List.any_eq_true, decide_eq_true_eq]

/-- Checks 3 to 5 as `exec` makes them are those written from the fields of the command's word. -/
theorem expectedFault_encode (i : Instr) (s : State) : expectedFault (encode i) s.phase = execFault i s := by
  unfold expectedFault
  rw [reservedClear_encode]
  cases i with
  | reset | status => simp [encode, execFault]
  | crcInit | crcByte d | crcRead | chunkData d => cases hp : s.phase <;> simp [encode, execFault, phaseFault, hp]
  | chunkStart tag n =>
    cases hp : s.phase <;>
      simp [encode, execFault, phaseFault, hp, be32_eq_tagBytes_tagOfField, exists_mem_tagBytes_iff]

/-- The checks of 30_encoding.md R56 written from the fields of the word are those the machine makes. -/
theorem expectedFault_eq_wordFault (w : CmdWord) (s : State) : expectedFault w s.phase = wordFault w s := by
  cases hd : decode w with
  | error e => rw [wordFault_of_error w s e hd, expectedFault_of_no_command w s.phase (by simp [hd])]
  | ok i => rw [wordFault_of_ok w s i hd, (decode_eq_ok_iff w i).1 hd, expectedFault_encode]

/-- Settles O12: the expected fault is the one the machine raises, `expectedFault_eq_wordFault`. -/
theorem firstFailingCheckDecidesFault : Obligations.FirstFailingCheckDecidesFault := by
  unfold Obligations.FirstFailingCheckDecidesFault
  intro s w
  rw [expectedFault_eq_wordFault]
  refine ⟨fun c hc => acceptWord_of_refused w s c hc, fun hf => ?_⟩
  obtain ⟨i, hd, hi, hw⟩ := acceptWord_of_performed w s hf
  exact ⟨i, _, hd, hw, exec_of_performed i s hi, lastCode_respond _ _⟩

/-! ## The response -/

theorem openChunk_rem (tag : Tag) (n : Word) (s : State) : (openChunk tag n s).rem = n := by
  by_cases hn : n = 0#32
  · rw [hn, openChunk_zero]
  · rw [openChunk_pos tag n s hn]

/-- Settles O13: a refused word answers as fault entry does, a performed one with `performedValue`. -/
theorem oneResponsePerCommandWord : Obligations.OneResponsePerCommandWord := by
  unfold Obligations.OneResponsePerCommandWord
  intro s w
  cases hf : wordFault w s with
  | some c =>
    obtain ⟨-, -, -, -, -, hresponses⟩ := raiseFault_frame c s
    have hcode := respCode_respWord (faultCode c) 0#32
    have hval := respVal_respWord (faultCode c) 0#32
    exact ⟨raiseFault c s, respWord (faultCode c) 0#32, acceptWord_of_refused w s c hf, hresponses,
      fun _ => ⟨hval, c, hcode, rfl⟩, fun hz => absurd (hcode.symm.trans hz) (faultCode_ne_zero c)⟩
  | none =>
    obtain ⟨i, hd, -, hw⟩ := acceptWord_of_performed w s hf
    obtain ⟨-, hresponses⟩ := perform_frame i s
    have hcode := respCode_respWord 0#4 (performedValue i s)
    have hval := respVal_respWord 0#4 (performedValue i s)
    refine ⟨respond (performedValue i s) (perform i s), respWord 0#4 (performedValue i s), hw,
      by rw [respond_responses, hresponses], fun hz => absurd hcode hz, fun _ => ⟨i, hd, ?_⟩⟩
    cases i with
    | reset | status | crcInit | crcByte d | crcRead | chunkData d => exact hval
    | chunkStart tag n => exact ⟨hval, openChunk_rem tag n s⟩

/-! ## Every step answers -/

theorem acceptWord_answers (w : CmdWord) (s : State) : ∃ t, acceptWord w s = .next t := by
  cases hf : wordFault w s with
  | some c => exact ⟨raiseFault c s, acceptWord_of_refused w s c hf⟩
  | none =>
    obtain ⟨i, -, -, hw⟩ := acceptWord_of_performed w s hf
    exact ⟨_, hw⟩

/-- Settles O14, by the cases of a step. -/
theorem everyStepAnswers : Obligations.EveryStepAnswers := by
  unfold Obligations.EveryStepAnswers
  intro s
  rcases step_cases s with ⟨-, hs⟩ | ⟨rest, -, hs⟩ | ⟨w, rest, -, hs⟩
  · exact ⟨s, hs⟩
  · exact ⟨_, hs⟩
  · rw [hs]
    exact acceptWord_answers w _

end Sys2Proof.Machine
end

section
/-! SUPPORT. The encoded form of a chunk, read field by field (30_encoding.md R54, 41_chunk.md R100). -/

namespace Sys2Proof.Machine

theorem makeChunk_length (tag : Tag) (payload : List Byte) : (makeChunk tag payload).length = 12 + payload.length := by
  simp only [makeChunk, List.length_append, be32_length, tagBytes_length]
  omega

theorem take_length_makeChunk (tag : Tag) (payload : List Byte) :
    (makeChunk tag payload).take 4 = be32 (BitVec.ofNat 32 payload.length) := rfl

theorem drop_length_makeChunk (tag : Tag) (payload : List Byte) :
    (makeChunk tag payload).drop 4 = tagBytes tag ++ (payload ++ be32 (crc32 (tagBytes tag ++ payload))) := by
  simp only [makeChunk, List.append_assoc]
  exact List.drop_left' (be32_length _)

theorem drop_tag_makeChunk (tag : Tag) (payload : List Byte) :
    (makeChunk tag payload).drop 8 = payload ++ be32 (crc32 (tagBytes tag ++ payload)) := by
  rw [show 8 = 4 + 4 from rfl, ← List.drop_drop, drop_length_makeChunk]
  exact List.drop_left' (tagBytes_length tag)

/-- Settles O40: each field stands behind those before it. -/
theorem chunkWireLayout : Obligations.ChunkWireLayout := by
  unfold Obligations.ChunkWireLayout
  intro tag payload hl
  have hlen : (BitVec.ofNat 32 payload.length).toNat = payload.length := by
    rw [BitVec.toNat_ofNat]
    exact Nat.mod_eq_of_lt (by omega)
  refine ⟨rfl, hlen, makeChunk_length tag payload, take_length_makeChunk tag payload, ?_, ?_, ?_⟩
  · rw [drop_length_makeChunk]
    exact List.take_left' (tagBytes_length tag)
  · rw [drop_tag_makeChunk, List.take_left' rfl]
  · rw [← List.drop_drop, drop_tag_makeChunk, List.drop_left' rfl]
    rfl

end Sys2Proof.Machine
end

section
/-! SUPPORT. The text form: the lexer on words, the value of printed digits, and a printed command read back
(30_encoding.md R61). -/

namespace Sys2Proof.Machine

/-! ## The lexer -/

/-- A character that stands in a word: no blank, comma, semicolon or double quote; `lexLine_word` ties it to the lexer. -/
def isWordChar (c : Char) : Bool := c ≠ ';' && c ≠ ' ' && c ≠ ',' && c ≠ quoteMark

theorem lexLine_cons_of_isWordChar (acc cs : List Char) (c : Char) (h : isWordChar c = true) :
    lexLine acc false (c :: cs) = lexLine (c :: acc) false cs := by
  simp only [isWordChar, Bool.and_eq_true, decide_eq_true_eq] at h
  obtain ⟨⟨⟨hsemicolon, hblank⟩, hcomma⟩, hquote⟩ := h
  simp [lexLine, hsemicolon, hblank, hcomma, hquote]

theorem lexLine_append_of_isWordChar (acc cs rest : List Char) (h : cs.all isWordChar = true) :
    lexLine acc false (cs ++ rest) = lexLine (cs.reverse ++ acc) false rest := by
  induction cs generalizing acc with
  | nil => rfl
  | cons c cs ih =>
    rw [List.all_cons, Bool.and_eq_true] at h
    obtain ⟨hc, hcs⟩ := h
    rw [List.cons_append, lexLine_cons_of_isWordChar _ _ _ hc, ih _ hcs, List.reverse_cons, List.append_assoc,
      List.singleton_append]

theorem flushWord_reverse (cs : List Char) (ts : List Token) (hne : cs ≠ []) :
    flushWord (cs.reverse ++ []) ts = .word cs :: ts := by
  rw [List.append_nil]
  cases hr : cs.reverse with
  | nil => exact absurd (List.reverse_eq_nil_iff.1 hr) hne
  | cons c acc => rw [flushWord, ← hr, List.reverse_reverse]

section
variable (cs rest : List Char) (ts : List Token) (h : cs.all isWordChar = true) (hne : cs ≠ [])
include h hne

theorem lexLine_word : lexLine [] false cs = some [.word cs] := by
  have hlex := lexLine_append_of_isWordChar [] cs [] h
  rw [List.append_nil] at hlex
  rw [hlex, lexLine, if_neg Bool.false_ne_true, flushWord_reverse cs [] hne]

theorem lexLine_word_blank (hrest : lexLine [] false rest = some ts) :
    lexLine [] false (cs ++ ' ' :: rest) = some (.word cs :: ts) :=
  calc lexLine [] false (cs ++ ' ' :: rest)
    _ = (lexLine [] false rest).map (flushWord (cs.reverse ++ [])) := lexLine_append_of_isWordChar [] cs _ h
    _ = some (.word cs :: ts) := by rw [hrest, Option.map_some, flushWord_reverse cs ts hne]

theorem lexLine_word_comma (hrest : lexLine [] false rest = some ts) :
    lexLine [] false (cs ++ ',' :: rest) = some (.word cs :: .comma :: ts) :=
  calc lexLine [] false (cs ++ ',' :: rest)
    _ = (lexLine [] false rest).map (fun ts => flushWord (cs.reverse ++ []) (.comma :: ts)) :=
      lexLine_append_of_isWordChar [] cs _ h
    _ = some (.word cs :: .comma :: ts) := by rw [hrest, Option.map_some, flushWord_reverse cs _ hne]

end

theorem lexLine_blank (rest : List Char) : lexLine [] false (' ' :: rest) = lexLine [] false rest :=
  Option.map_id'

/-! ## Printed numbers -/

@[simp] theorem isWordChar_hexChar (v : BitVec 4) : isWordChar (hexChar v) = true := by
  revert v; decide

@[simp] theorem hexDigit_hexChar (v : BitVec 4) : hexDigit (hexChar v) = some v.toNat := by
  revert v; decide

theorem isWordChar_hexOfByte (d : Byte) : (hexOfByte d).all isWordChar = true := by
  simp [hexOfByte]

theorem isWordChar_hexOfWord (v : Word) : (hexOfWord v).all isWordChar = true := by
  simp [hexOfWord, List.all_flatMap, isWordChar_hexOfByte]

theorem digitsValue_hexOfByte (acc : Nat) (d : Byte) (cs : List Char) :
    digitsValue 16 hexDigit acc (hexOfByte d ++ cs) = digitsValue 16 hexDigit (acc * 256 + d.toNat) cs := by
  have hd : (acc * 16 + (d.extractLsb' 4 4).toNat) * 16 + (d.extractLsb' 0 4).toNat = acc * 256 + d.toNat := by
    simp only [BitVec.extractLsb'_toNat, Nat.shiftRight_eq_div_pow]
    omega
  simp only [hexOfByte, List.cons_append, List.nil_append, digitsValue, hexDigit_hexChar, hd]

theorem digitsValue_hexOfWord (v : Word) : digitsValue 16 hexDigit 0 (hexOfWord v) = some v.toNat := by
  simp only [hexOfWord, be32, List.flatMap_cons, List.flatMap_nil, digitsValue_hexOfByte, digitsValue,
    BitVec.extractLsb'_toNat, Nat.shiftRight_eq_div_pow, Option.some.injEq]
  omega

theorem hexNumber_hexOfWord (v : Word) : hexNumber ('0' :: 'x' :: hexOfWord v) = some v.toNat :=
  digitsValue_hexOfWord v

@[simp] theorem word32_toNat (v : Word) : word32 (some v.toNat) = some v := by
  simp [word32, v.isLt]

theorem byteOperand_hexOfByte (d : Byte) : byteOperand (.word ('0' :: 'x' :: hexOfByte d)) = some d := by
  have hvalue := digitsValue_hexOfByte 0 d []
  rw [List.append_nil, digitsValue, Nat.zero_mul, Nat.zero_add] at hvalue
  calc byteOperand (.word ('0' :: 'x' :: hexOfByte d))
    _ = (digitsValue 16 hexDigit 0 (hexOfByte d)).map (BitVec.ofNat 8) := rfl
    _ = some d := by rw [hvalue, Option.map_some, BitVec.ofNat_toNat, BitVec.setWidth_eq]

theorem tagOperand_hexOfWord (t : Tag) : tagOperand (.word ('0' :: 'x' :: hexOfWord (fieldOfTag t))) = some t := by
  rw [tagOperand, hexNumber_hexOfWord, word32_toNat, Option.map_some, tagOfField_fieldOfTag]

theorem lengthOperand_hexOfWord (n : Word) : lengthOperand (.word ('0' :: 'x' :: hexOfWord n)) = some n := by
  rw [lengthOperand, number, hexNumber_hexOfWord, word32_toNat]

/-! ## Printed commands -/

theorem assembleLine_of_lexLine (line : List Char) (ts : List Token) (h : lexLine [] false line = some ts) :
    assembleLine line = assembleTokens ts := by
  rw [assembleLine, h, Option.bind_some]

theorem assembleLine_word (name : List Char) (h : name.all isWordChar = true) (hne : name ≠ []) :
    assembleLine name = assembleTokens [.word name] :=
  assembleLine_of_lexLine _ _ (lexLine_word name h hne)

theorem isWordChar_hexNumber (cs : List Char) (h : cs.all isWordChar = true) :
    ('0' :: 'x' :: cs).all isWordChar = true := by
  rwa [List.all_cons, List.all_cons, show isWordChar '0' = true by decide, show isWordChar 'x' = true by decide,
    Bool.true_and, Bool.true_and]

/-- A mnemonic with a printed data byte reads as the mnemonic and that byte. -/
theorem assembleLine_byte (name : List Char) (d : Byte) (h : name.all isWordChar = true) (hne : name ≠ []) :
    assembleLine (name ++ [' ', '0', 'x'] ++ hexOfByte d) =
      assembleTokens [.word name, .word ('0' :: 'x' :: hexOfByte d)] := by
  rw [List.append_assoc]
  exact assembleLine_of_lexLine _ _ (lexLine_word_blank name _ _ h hne
    (lexLine_word _ (isWordChar_hexNumber _ (isWordChar_hexOfByte d)) nofun))

theorem assembleTokens_crcByte (ts : List Token) :
    assembleTokens (.word nameCrcByte :: ts) = byteLine .crcByte ts := rfl

theorem assembleTokens_chunkData (ts : List Token) :
    assembleTokens (.word nameChunkData :: ts) = byteLine .chunkData ts := rfl

theorem assembleTokens_chunkStart (ts : List Token) :
    assembleTokens (.word nameChunkStart :: ts) = startLine ts := rfl

theorem byteLine_hexOfByte (mk : Byte → Instr) (d : Byte) :
    byteLine mk [.word ('0' :: 'x' :: hexOfByte d)] = some [mk d] := by
  rw [byteLine, byteOperand_hexOfByte, Option.map_some]

theorem startLine_hexOfWord (tag : Tag) (n : Word) :
    startLine [.word ('0' :: 'x' :: hexOfWord (fieldOfTag tag)), .comma, .word ('0' :: 'x' :: hexOfWord n)] =
      some [.chunkStart tag n] := by
  rw [startLine, tagOperand_hexOfWord, lengthOperand_hexOfWord]

theorem lexLine_chunkStart (tag : Tag) (n : Word) :
    lexLine [] false (showInstr (.chunkStart tag n)) =
      some [.word nameChunkStart, .word ('0' :: 'x' :: hexOfWord (fieldOfTag tag)), .comma,
        .word ('0' :: 'x' :: hexOfWord n)] := by
  have hlength := lexLine_word ('0' :: 'x' :: hexOfWord n) (isWordChar_hexNumber _ (isWordChar_hexOfWord n)) nofun
  have htag := lexLine_word_comma ('0' :: 'x' :: hexOfWord (fieldOfTag tag)) _ _
    (isWordChar_hexNumber _ (isWordChar_hexOfWord _)) nofun ((lexLine_blank _).trans hlength)
  have hname := lexLine_word_blank nameChunkStart _ _ (by decide) nofun htag
  rw [showInstr, List.append_assoc, List.append_assoc, List.append_assoc]
  exact hname

/-- Settles O50: the tokens of a printed command are its mnemonic and its operands, each of which reads back. -/
theorem printedCommandReadsBack : Obligations.PrintedCommandReadsBack := by
  unfold Obligations.PrintedCommandReadsBack
  intro i
  cases i with
  | reset | status | crcInit | crcRead => exact assembleLine_word _ (by decide) nofun
  | crcByte d =>
    rw [showInstr, assembleLine_byte nameCrcByte d (by decide) nofun, assembleTokens_crcByte, byteLine_hexOfByte]
  | chunkData d =>
    rw [showInstr, assembleLine_byte nameChunkData d (by decide) nofun, assembleTokens_chunkData, byteLine_hexOfByte]
  | chunkStart tag n =>
    rw [assembleLine_of_lexLine _ _ (lexLine_chunkStart tag n), assembleTokens_chunkStart, startLine_hexOfWord]

end Sys2Proof.Machine
end

section
/-! SUPPORT. The CRC functions: a shift step is XOR-linear and can be undone, and so can the fold of a message; the
table form and the normal form compute the same function (40_crc.md sections 2 and 4). -/

namespace Sys2Proof.Machine

/-! ## Shift steps -/

/-- What a shift step XORs in when it shifts out the bit `p`; `shiftStep_eq` ties it to `shiftStep`. -/
def stepFeedback (p : Bool) : Word := if p then Config.polyReflected else 0#32

theorem stepFeedback_xor (p q : Bool) : stepFeedback (p ^^ q) = stepFeedback p ^^^ stepFeedback q := by
  revert p q; decide

theorem stepFeedback_getLsbD_31 (p : Bool) : (stepFeedback p).getLsbD 31 = p := by
  revert p; decide

theorem shiftStep_eq (c : Word) : shiftStep c = c >>> 1 ^^^ stepFeedback (c.getLsbD 0) := by
  rw [shiftStep, stepFeedback]
  split
  · rfl
  · exact BitVec.xor_zero.symm

theorem shiftStep_xor (a b : Word) : shiftStep (a ^^^ b) = shiftStep a ^^^ shiftStep b := by
  simp only [shiftStep_eq, BitVec.ushiftRight_xor_distrib, BitVec.getLsbD_xor, stepFeedback_xor]
  ac_rfl

/-- Bit 31 of the result is the bit that was shifted out (40_crc.md R89 d). -/
theorem shiftStep_getLsbD_31 (c : Word) : (shiftStep c).getLsbD 31 = c.getLsbD 0 := by
  rw [shiftStep_eq, BitVec.getLsbD_xor, stepFeedback_getLsbD_31, BitVec.getLsbD_ushiftRight,
    BitVec.getLsbD_of_ge c _ (by decide), Bool.false_xor]

theorem eq_of_ushiftRight_one_eq (a b : Word) (h0 : a.getLsbD 0 = b.getLsbD 0) (h : a >>> 1 = b >>> 1) : a = b := by
  refine BitVec.eq_of_getLsbD_eq fun i _ => ?_
  cases i with
  | zero => exact h0
  | succ i => simpa [Nat.add_comm] using congrArg (·.getLsbD i) h

/-- A shift step can be undone: its result shows which bit it shifted out, and so what it XORed in. -/
theorem shiftStep_injective : Function.Injective shiftStep := by
  intro a b h
  have h0 : a.getLsbD 0 = b.getLsbD 0 := by rw [← shiftStep_getLsbD_31, h, shiftStep_getLsbD_31]
  rw [shiftStep_eq, shiftStep_eq, h0, BitVec.xor_left_inj] at h
  exact eq_of_ushiftRight_one_eq a b h0 h

theorem shiftSteps_eq_iterate (k : Nat) : shiftSteps k = shiftStep^[k] := by
  induction k with
  | zero => rfl
  | succ k ih => rw [Function.iterate_succ, ← ih]; rfl

theorem shiftSteps_injective (k : Nat) : Function.Injective (shiftSteps k) := by
  rw [shiftSteps_eq_iterate]
  exact shiftStep_injective.iterate k

theorem shiftSteps_xor (k : Nat) (a b : Word) : shiftSteps k (a ^^^ b) = shiftSteps k a ^^^ shiftSteps k b := by
  induction k generalizing a b with
  | zero => rfl
  | succ k ih => rw [shiftSteps, shiftStep_xor, ih]; rfl

/-- While the bits shifted out are 0, nothing is XORed in. -/
theorem shiftSteps_of_low_bits_false (k : Nat) (c : Word) (h : ∀ i < k, c.getLsbD i = false) :
    shiftSteps k c = c >>> k := by
  induction k generalizing c with
  | zero => rfl
  | succ k ih =>
    have hstep : shiftStep c = c >>> 1 := by
      rw [shiftStep_eq, h 0 k.succ_pos]
      exact BitVec.xor_zero
    have hlow : ∀ i < k, (c >>> 1).getLsbD i = false := fun i hi => by
      rw [BitVec.getLsbD_ushiftRight]
      exact h (1 + i) (by omega)
    rw [shiftSteps, hstep, ih _ hlow, ← BitVec.shiftRight_add, Nat.add_comm]

/-! ## `crc_update` -/

theorem crcUpdate_xor (a b : Word) (d e : Byte) : crcUpdate (a ^^^ b) (d ^^^ e) = crcUpdate a d ^^^ crcUpdate b e := by
  rw [crcUpdate, crcUpdate, crcUpdate, ← shiftSteps_xor, BitVec.setWidth_xor]
  congr 1
  ac_rfl

theorem crcUpdate_zero_byte (c : Word) : crcUpdate c 0#8 = shiftSteps 8 c := by
  rw [crcUpdate, BitVec.setWidth_zero, BitVec.xor_zero]

theorem crcUpdate_injective_left (d : Byte) : Function.Injective (crcUpdate · d) :=
  fun _ _ h => (BitVec.xor_left_inj _).1 (shiftSteps_injective 8 h)

theorem crcUpdate_injective_right (c : Word) : Function.Injective (crcUpdate c) := by
  intro d e h
  have hwide : d.setWidth 32 = e.setWidth 32 := (BitVec.xor_right_inj c).1 (shiftSteps_injective 8 h)
  simpa using congrArg (·.setWidth 8) hwide

/-! ## `crc_bytes` -/

theorem crcBytes_injective (s : List Byte) : Function.Injective (crcBytes · s) := by
  induction s with
  | nil => exact fun _ _ h => h
  | cons d s ih => exact fun _ _ h => crcUpdate_injective_left d (ih h)

theorem crcBytes_xor (a b : Word) (s t : List Byte) (h : s.length = t.length) :
    crcBytes (a ^^^ b) (List.zipWith (· ^^^ ·) s t) = crcBytes a s ^^^ crcBytes b t := by
  induction s generalizing a b t with
  | nil =>
    cases t with
    | nil => rfl
    | cons e t => cases h
  | cons d s ih =>
    cases t with
    | nil => cases h
    | cons e t =>
      rw [List.zipWith_cons_cons, crcBytes_cons, crcUpdate_xor, ih _ _ t (Nat.succ.inj h)]
      rfl

theorem zipWith_xor_replicate_zero (s : List Byte) :
    List.zipWith (· ^^^ ·) s (List.replicate s.length 0#8) = s := by
  induction s with
  | nil => rfl
  | cons d s ih => rw [List.length_cons, List.replicate_succ, List.zipWith_cons_cons, ih, BitVec.xor_zero]

theorem not32_injective : Function.Injective not32 :=
  Function.Involutive.injective not32_not32

/-- The complement of three values is that of their XOR: the mask is the XOR of three masks. -/
theorem not32_xor_xor (a b c : Word) : not32 (a ^^^ b ^^^ c) = not32 a ^^^ not32 b ^^^ not32 c := by
  have hmask : Config.complementMask = Config.complementMask ^^^ Config.complementMask ^^^ Config.complementMask := by
    decide
  rw [not32, hmask, not32, not32, not32]
  ac_rfl

/-! ## The table form -/

theorem low_byte_xor_high_bytes (x : Word) : (x.extractLsb' 0 8).setWidth 32 ^^^ (x >>> 8) <<< 8 = x := by
  ext i hi
  by_cases h : i < 8
  · simp [h, BitVec.getLsbD_eq_getElem hi]
  · simp [h, show 8 + (i - 8) = i by omega, BitVec.getLsbD_eq_getElem hi]

theorem ushiftRight_shiftLeft_ushiftRight (x : Word) (k : Nat) : ((x >>> k) <<< k) >>> k = x >>> k := by
  ext i hi
  simpa using fun h => BitVec.lt_of_getLsbD h

theorem setWidth_byte_ushiftRight (d : Byte) : d.setWidth 32 >>> 8 = 0#32 := by
  ext i hi
  simp

/-- Eight shift steps move the high bytes down unchanged and act on the low byte alone. -/
theorem shiftSteps_eight (x : Word) :
    shiftSteps 8 x = shiftSteps 8 ((x.extractLsb' 0 8).setWidth 32) ^^^ x >>> 8 := by
  have hlow : ∀ i < 8, ((x >>> 8) <<< 8).getLsbD i = false := fun i hi => by simp [hi]
  calc shiftSteps 8 x
    _ = shiftSteps 8 ((x.extractLsb' 0 8).setWidth 32) ^^^ shiftSteps 8 ((x >>> 8) <<< 8) := by
      rw [← shiftSteps_xor, low_byte_xor_high_bytes]
    _ = shiftSteps 8 ((x.extractLsb' 0 8).setWidth 32) ^^^ x >>> 8 := by
      rw [shiftSteps_of_low_bits_false 8 _ hlow, ushiftRight_shiftLeft_ushiftRight]

theorem crcUpdateByTable_eq (c : Word) (d : Byte) : crcUpdateByTable c d = crcUpdate c d := by
  rw [crcUpdateByTable, tableEntry, crcUpdate_zero_byte, crcUpdate, shiftSteps_eight (c ^^^ _),
    BitVec.ushiftRight_xor_distrib, setWidth_byte_ushiftRight, BitVec.xor_zero]

/-! ## The normal form -/

theorem rev32_getLsbD (x : Word) (i : Nat) (hi : i < 32) : (rev32 x).getLsbD i = x.getLsbD (31 - i) := by
  rw [rev32, BitVec.getLsbD_reverse, BitVec.getMsbD, decide_eq_true hi, Bool.true_and]

theorem rev8_getLsbD (d : Byte) (i : Nat) (hi : i < 8) : (rev8 d).getLsbD i = d.getLsbD (7 - i) := by
  rw [rev8, BitVec.getLsbD_reverse, BitVec.getMsbD, decide_eq_true hi, Bool.true_and]

theorem rev32_rev32 (x : Word) : rev32 (rev32 x) = x :=
  BitVec.reverse_reverse_eq

theorem rev32_xor (a b : Word) : rev32 (a ^^^ b) = rev32 a ^^^ rev32 b := by
  refine BitVec.eq_of_getLsbD_eq fun i hi => ?_
  simp only [rev32_getLsbD _ i hi, BitVec.getLsbD_xor]

theorem rev32_ushiftRight_one (x : Word) : rev32 (x >>> 1) = rev32 x <<< 1 := by
  refine BitVec.eq_of_getLsbD_eq fun i hi => ?_
  rw [rev32_getLsbD _ i hi, BitVec.getLsbD_ushiftRight, BitVec.getLsbD_shiftLeft]
  cases i with
  | zero => simp
  | succ i =>
    rw [Nat.add_sub_cancel, rev32_getLsbD x i (by omega), show 1 + (31 - (i + 1)) = 31 - i by omega]
    simp [hi]

theorem rev32_setWidth_byte (d : Byte) : rev32 (d.setWidth 32) = (rev8 d).setWidth 32 <<< 24 := by
  refine BitVec.eq_of_getLsbD_eq fun i hi => ?_
  rw [rev32_getLsbD _ i hi, BitVec.getLsbD_shiftLeft]
  by_cases h : i < 24
  · simp [h, BitVec.getLsbD_of_ge d (31 - i) (by omega)]
  · have hrev := rev8_getLsbD d (i - 24) (by omega)
    simp [h, hi, hrev, show 7 - (i - 24) = 31 - i by omega, show i - 24 < 32 by omega, show 31 - i < 32 by omega]

theorem rev32_polyNormal : rev32 Config.polyNormal = Config.polyReflected := by
  have hbits : ∀ i : Fin 32, Config.polyNormal.getLsbD (31 - i) = Config.polyReflected.getLsbD i := by decide
  exact BitVec.eq_of_getLsbD_eq fun i hi => (rev32_getLsbD _ i hi).trans (hbits ⟨i, hi⟩)

theorem rev32_polyReflected : rev32 Config.polyReflected = Config.polyNormal := by
  rw [← rev32_polyNormal, rev32_rev32]

theorem normalStep_rev32 (c : Word) : normalStep (rev32 c) = rev32 (shiftStep c) := by
  rw [normalStep, shiftStep, rev32_getLsbD c 31 (by decide)]
  split
  · rw [rev32_xor, rev32_ushiftRight_one, rev32_polyReflected]
  · rw [rev32_ushiftRight_one]

theorem normalSteps_rev32 (k : Nat) (c : Word) : normalSteps k (rev32 c) = rev32 (shiftSteps k c) := by
  induction k generalizing c with
  | zero => rfl
  | succ k ih => rw [normalSteps, normalStep_rev32, ih]; rfl

theorem normalUpdate_rev32 (c : Word) (d : Byte) : normalUpdate (rev32 c) d = rev32 (crcUpdate c d) := by
  rw [normalUpdate, ← rev32_setWidth_byte, ← rev32_xor, normalSteps_rev32, crcUpdate]

theorem normalBytes_rev32 (c : Word) (s : List Byte) : normalBytes (rev32 c) s = rev32 (crcBytes c s) := by
  induction s generalizing c with
  | nil => rfl
  | cons d s ih => rw [normalBytes, normalUpdate_rev32, ih]; rfl

/-! ## The obligations -/

/-- Settles O33: the split is `crcBytes_append`. -/
theorem crcBytesMayBeSplit : Obligations.CrcBytesMayBeSplit := by
  unfold Obligations.CrcBytesMayBeSplit
  exact ⟨crcBytes_nil, crcBytes_cons, crcBytes_append⟩

/-- Settles O35: by linearity the low byte's part is the table entry and the high bytes' part a plain shift. -/
theorem tableFormAgrees : Obligations.TableFormAgrees := by
  unfold Obligations.TableFormAgrees
  exact crcUpdateByTable_eq

/-- Settles O36: a step of the normal form is a shift step seen through `rev32`. -/
theorem normalFormAgrees : Obligations.NormalFormAgrees := by
  unfold Obligations.NormalFormAgrees
  exact ⟨rev32_polyNormal, normalUpdate_rev32, fun s => by rw [crc32Normal, normalBytes_rev32, rev32_rev32, crc32]⟩

/-- Settles O37: shift steps are XOR-linear. -/
theorem crcUpdateIsLinear : Obligations.CrcUpdateIsLinear := by
  unfold Obligations.CrcUpdateIsLinear
  exact ⟨crcUpdate_xor, fun c d => by rw [crcUpdate_zero_byte, crcUpdate], by decide⟩

/-- Settles O38: the registers differ after the differing byte, and the rest of the message keeps them apart. -/
theorem oneByteDifferenceIsDetected : Obligations.OneByteDifferenceIsDetected := by
  unfold Obligations.OneByteDifferenceIsDetected
  refine ⟨fun d => Finite.injective_iff_bijective.1 (crcUpdate_injective_left d), fun front back d e hde h => hde ?_⟩
  have hbytes := not32_injective h
  rw [crcBytes_append, crcBytes_append] at hbytes
  exact crcUpdate_injective_right _ (crcBytes_injective back hbytes)

/-- Settles O39: the seed is the XOR of three seeds, and so is the complement. -/
theorem crc32OfXor : Obligations.Crc32OfXor := by
  unfold Obligations.Crc32OfXor
  intro s t h
  have hlen : (List.zipWith (· ^^^ ·) s t).length = s.length := by rw [List.length_zipWith, ← h, Nat.min_self]
  have hseed : Config.seed = Config.seed ^^^ Config.seed ^^^ Config.seed := by decide
  have hzero : (List.zipWith (· ^^^ ·) s t).length = (List.replicate s.length 0#8).length := by
    rw [hlen, List.length_replicate]
  calc crc32 (List.zipWith (· ^^^ ·) s t)
    _ = not32 (crcBytes (Config.seed ^^^ Config.seed ^^^ Config.seed)
          (List.zipWith (· ^^^ ·) (List.zipWith (· ^^^ ·) s t) (List.replicate s.length 0#8))) := by
      rw [← hseed, ← hlen, zipWith_xor_replicate_zero, crc32]
    _ = not32 (crcBytes Config.seed s ^^^ crcBytes Config.seed t ^^^
          crcBytes Config.seed (List.replicate s.length 0#8)) := by
      rw [crcBytes_xor _ _ _ _ hzero, crcBytes_xor _ _ _ _ h]
    _ = crc32 s ^^^ crc32 t ^^^ crc32 (List.replicate s.length 0#8) := not32_xor_xor _ _ _

/-- Settles O32: `k` shift steps are the `k`-fold iterate of one. -/
theorem crcUpdateIsEightShiftSteps : Obligations.CrcUpdateIsEightShiftSteps := by
  unfold Obligations.CrcUpdateIsEightShiftSteps
  refine ⟨fun c d => ?_, by decide, by decide, by decide⟩
  rw [crcUpdate, shiftSteps_eq_iterate]
  rfl

/-- Settles O34: `crc32` is written so, and of no bytes it is the complement of the seed. -/
theorem crc32SeedsFoldsComplements : Obligations.Crc32SeedsFoldsComplements := by
  unfold Obligations.Crc32SeedsFoldsComplements
  exact ⟨fun _ => rfl, by decide⟩

end Sys2Proof.Machine
end

section
/-! SUPPORT. The commands CRC_INIT, CRC_BYTE, CRC_READ and their sequence (40_crc.md sections 3 and 5). -/

namespace Sys2Proof.Machine

/-! ## Where a command that is legal in IDLE only completes -/

section
variable (i : Instr) (hi : ∀ s, execFault i s = phaseFault .idle s) (s : State)
include hi

theorem exec_idleOnly_of_idle (h : s.phase = .idle) :
    exec i s = .next (respond (performedValue i s) (perform i s)) :=
  exec_of_performed i s ((hi s).trans (phaseFault_of_legal .idle s h nofun))

theorem exec_idleOnly_of_payload (h : s.phase = .payload) :
    exec i s = .next { s with phase := .fault, err := 2#4, responses := s.responses ++ [respWord 2#4 0#32] } := by
  have hfault : s.phase ≠ .fault := by simp [h]
  have hidle : s.phase ≠ .idle := by simp [h]
  rw [exec_of_refused i s .eState ((hi s).trans (phaseFault_of_other .idle s hfault hidle)),
    raiseFault_of_running _ s hfault]
  rfl

theorem exec_idleOnly_of_fault (h : s.phase = .fault) :
    exec i s = .next { s with responses := s.responses ++ [respWord 4#4 0#32] } := by
  rw [exec_of_refused i s .eHalted ((hi s).trans (phaseFault_of_fault .idle s h)), raiseFault_of_fault _ s h]
  rfl

end

/-- CRC_INIT leaves the seed in CRC, whatever it held, and stays in IDLE. -/
theorem exec_crcInit_next (s t : State) (hs : s.phase = .idle) (h : exec .crcInit s = .next t) :
    t.crc = Config.seed ∧ t.phase = .idle := by
  rw [exec_idleOnly_of_idle .crcInit (fun _ => rfl) s hs] at h
  cases h
  exact ⟨rfl, hs⟩

/-! ## The words of the commands -/

theorem decodePlain_of_reserved (a b : Word) (i : Instr) (h : a ≠ 0#32 ∨ b ≠ 0#32) :
    decodePlain a b i = .error .reservedBits :=
  if_neg (not_and_or.2 h)

theorem decodeByte_of_reserved (a b : Word) (mk : Byte → Instr) (h : a ≠ 0#32 ∨ reservedHigh b ≠ 0#24) :
    decodeByte a b mk = .error .reservedBits :=
  if_neg (not_and_or.2 h)

theorem cmdWord_or (op op' : Byte) (a a' b b' : Word) :
    cmdWord op a b ||| cmdWord op' a' b' = cmdWord (op ||| op') (a ||| a') (b ||| b') := by
  rw [cmdWord, cmdWord, cmdWord, BitVec.or_append, BitVec.or_append]

theorem setWidth_byte_eq_cmdWord (d : Byte) : d.setWidth 72 = cmdWord 0#8 0#32 (fieldOfByte d) := by
  refine BitVec.eq_of_getLsbD_eq fun k hk => ?_
  rw [cmdWord, fieldOfByte, BitVec.getLsbD_append, BitVec.getLsbD_setWidth, BitVec.getLsbD_setWidth]
  by_cases h : k < 32
  · simp [h, hk]
  · simp [h, BitVec.getLsbD_of_ge d k (by omega)]

theorem encode_crcByte (d : Byte) : encode (.crcByte d) = 0x110000000000000000#72 ||| d.setWidth 72 := by
  have hword : 0x110000000000000000#72 = cmdWord 0x11#8 0#32 0#32 := by decide
  rw [hword, setWidth_byte_eq_cmdWord, cmdWord_or, BitVec.or_zero, BitVec.or_zero, BitVec.zero_or, encode]

/-! ## The command sequence of a message -/

section
variable (s : State) (rest : List Event) (hs : s.phase = .idle)
include hs

theorem run_crcInit (hp : s.port = .command (encode .crcInit) :: rest) :
    run 1 s = .next (respond 0#32 { s with port := rest, crc := Config.seed }) :=
  run_one_of_performed .crcInit s rest hp (phaseFault_of_legal .idle _ hs nofun)

theorem run_crcByte (d : Byte) (hp : s.port = .command (encode (.crcByte d)) :: rest) :
    run 1 s = .next (respond 0#32 { s with port := rest, crc := crcUpdate s.crc d }) :=
  run_one_of_performed (.crcByte d) s rest hp (phaseFault_of_legal .idle _ hs nofun)

theorem run_crcRead (hp : s.port = .command (encode .crcRead) :: rest) :
    run 1 s = .next (respond (not32 s.crc) { s with port := rest }) :=
  run_one_of_performed .crcRead s rest hp (phaseFault_of_legal .idle _ hs nofun)

end

/-- After CRC_BYTE for each byte of `bs`: `run_crcBytes`. -/
def bytesFed (s : State) (bs : List Byte) (rest : List Event) : State :=
  { s with
    port := rest, crc := crcBytes s.crc bs,
    responses := s.responses ++ List.replicate bs.length (respWord 0#4 0#32) }

theorem bytesFed_nil (s : State) : bytesFed s [] s.port = s := by
  simp [bytesFed]

theorem bytesFed_cons (s : State) (d : Byte) (bs : List Byte) (rest rest' : List Event) :
    bytesFed (respond 0#32 { s with port := rest', crc := crcUpdate s.crc d }) bs rest = bytesFed s (d :: bs) rest := by
  simp [bytesFed, respond, answer, List.replicate_succ]

theorem run_crcBytes (s : State) (bs : List Byte) (rest : List Event) (hs : s.phase = .idle)
    (hp : s.port = commandEvents (bs.map .crcByte) ++ rest) :
    run bs.length s = .next (bytesFed s bs rest) := by
  induction bs generalizing s with
  | nil =>
    cases hp
    rw [bytesFed_nil]
    rfl
  | cons d bs ih =>
    rw [List.length_cons, Nat.add_comm, run_add 1 _ _ _ (run_crcByte s _ hs d hp), ← bytesFed_cons]
    exact ih _ hs rfl

/-- CRC_BYTE for each byte, then CRC_READ, from whatever CRC holds. -/
theorem run_crcBytes_crcRead (s : State) (bs : List Byte) (rest : List Event) (hs : s.phase = .idle)
    (hp : s.port = commandEvents (bs.map .crcByte ++ [.crcRead]) ++ rest) :
    run (bs.length + 1) s = .next (respond (not32 (crcBytes s.crc bs)) (bytesFed s bs rest)) := by
  rw [commandEvents_append, List.append_assoc] at hp
  rw [run_add _ 1 _ _ (run_crcBytes s bs _ hs hp)]
  exact run_crcRead _ rest hs rfl

/-! ## The obligations -/

/-- Settles O41: CRC_INIT puts the seed in CRC, and from there the bytes are folded in. -/
theorem crcCommandsComputeCrc32 : Obligations.CrcCommandsComputeCrc32 := by
  unfold Obligations.CrcCommandsComputeCrc32
  refine ⟨fun s bs rest hs hp => ?_, fun s bs rest hs hc hp => ?_⟩
  · have hinit := run_crcInit s (commandEvents (bs.map Instr.crcByte ++ [Instr.crcRead]) ++ rest) hs hp
    have hread := run_crcBytes_crcRead (respond 0#32 { s with port := _, crc := Config.seed }) bs rest hs rfl
    rw [show bs.length + 2 = 1 + (bs.length + 1) by omega, run_add 1 _ _ _ hinit, hread]
    simp [bytesFed, respond, answer, List.replicate_succ, crc32, Config.seed]
  · rw [run_crcBytes_crcRead s bs rest hs hp, bytesFed, hc]
    rfl

/-- Settles O3: CRC_INIT is a command of IDLE only, and what it loads does not depend on CRC. -/
theorem crcInitLoadsSeed : Obligations.CrcInitLoadsSeed := by
  unfold Obligations.CrcInitLoadsSeed
  have hi : ∀ s, execFault .crcInit s = phaseFault .idle s := fun _ => rfl
  refine ⟨by decide, exec_idleOnly_of_idle .crcInit hi, fun s t u hs ht hu => ?_,
    exec_idleOnly_of_payload .crcInit hi, exec_idleOnly_of_fault .crcInit hi, fun s a b h => ?_⟩
  · obtain ⟨hseed, hidle⟩ := exec_crcInit_next s t hs ht
    obtain ⟨hseed', -⟩ := exec_crcInit_next t u hidle hu
    rw [hseed, hseed']
  · exact acceptWord_of_error _ s .reservedBits (by simpa [decode] using decodePlain_of_reserved a b .crcInit h)

/-- Settles O4: CRC_BYTE is a command of IDLE only; the four values are computed. -/
theorem crcByteFoldsByte : Obligations.CrcByteFoldsByte := by
  unfold Obligations.CrcByteFoldsByte
  have hi (d : Byte) : ∀ s, execFault (.crcByte d) s = phaseFault .idle s := fun _ => rfl
  refine ⟨encode_crcByte, fun d => exec_idleOnly_of_idle (.crcByte d) (hi d),
    fun d => exec_idleOnly_of_payload (.crcByte d) (hi d),
    fun d => exec_idleOnly_of_fault (.crcByte d) (hi d), fun s a b h => ?_, by decide, by decide, by decide, by decide⟩
  exact acceptWord_of_error _ s .reservedBits (by simpa [decode] using decodeByte_of_reserved a b .crcByte h)

/-- Settles O5: CRC_READ is a command of IDLE only; the two values are complements. -/
theorem crcReadAnswersComplement : Obligations.CrcReadAnswersComplement := by
  unfold Obligations.CrcReadAnswersComplement
  have hi : ∀ s, execFault .crcRead s = phaseFault .idle s := fun _ => rfl
  have hidle (s : State) (hs : s.phase = .idle) :
      exec .crcRead s = .next { s with responses := s.responses ++ [respWord 0#4 (s.crc ^^^ 0xFFFFFFFF#32)] } :=
    exec_idleOnly_of_idle .crcRead hi s hs
  refine ⟨by decide, hidle, exec_idleOnly_of_payload .crcRead hi, exec_idleOnly_of_fault .crcRead hi, fun s a b h => ?_,
    fun s hs hc => ?_, fun s hs hc => ?_⟩
  · exact acceptWord_of_error _ s .reservedBits (by simpa [decode] using decodePlain_of_reserved a b .crcRead h)
  · rw [hidle s hs, hc, BitVec.xor_self]
  · rw [hidle s hs, hc, show 0x51BD9F7D#32 ^^^ 0xFFFFFFFF#32 = 0xAE426082#32 by decide]

end Sys2Proof.Machine
end

section
/-! SUPPORT. The commands CHUNK_START and CHUNK_DATA (41_chunk.md sections 2 and 3). -/

namespace Sys2Proof.Machine

/-! ## The sequence of a chunk and its trailer -/

/-- Settles O42: the two parts are `run_chunkCommands` and `run_chunkOpened`. -/
theorem chunkCommandsComputeMakeChunk : Obligations.ChunkCommandsComputeMakeChunk := by
  unfold Obligations.ChunkCommandsComputeMakeChunk
  intro s tag payload rest hs ht hl hp
  refine ⟨?_, fun k hk => run_chunkOpened s tag payload rest hs ht hl hp k hk⟩
  rw [run_chunkCommands s tag payload rest hs ht hl hp, chunkClosed, ← hs]
  rfl

theorem drop_payload_makeChunk (tag : Tag) (payload : List Byte) :
    (makeChunk tag payload).drop (8 + payload.length) = be32 (crc32 (tagBytes tag ++ payload)) := by
  rw [← List.drop_drop, drop_tag_makeChunk, List.drop_left' rfl]

/-- Settles O43: a closed chunk leaves in CRC the remainder whose complement is its trailer. -/
theorem chunkTrailerIsReadBack : Obligations.ChunkTrailerIsReadBack := by
  unfold Obligations.ChunkTrailerIsReadBack
  intro s tag payload hs ht hl hp
  rw [commandEvents_append] at hp
  have hchunk := run_chunkCommands s tag payload _ hs ht hl hp
  have hread := run_crcRead (chunkClosed s tag payload (commandEvents [.crcRead])) [] rfl rfl
  refine ⟨_, (run_add (payload.length + 1) 1 s _ hchunk).trans hread, crc32 (tagBytes tag ++ payload), ?_, ?_⟩
  · rw [respond_responses, List.getLast?_concat]
    rfl
  · rw [respond_out, Nat.add_assoc, chunkClosed, List.drop_length_add_append, drop_payload_makeChunk]

/-! ## What a refused command does to the whole state -/

theorem exec_of_refused_running (i : Instr) (s : State) (c : FaultCode) (hp : s.phase ≠ .fault)
    (hf : execFault i s = some c) :
    exec i s =
      .next { s with
        phase := .fault, err := faultCode c, responses := s.responses ++ [respWord (faultCode c) 0#32] } := by
  rw [exec_of_refused i s c hf, raiseFault_of_running c s hp]

theorem exec_of_refused_halted (i : Instr) (s : State) (hp : s.phase = .fault) (hf : execFault i s = some .eHalted) :
    exec i s = .next { s with responses := s.responses ++ [respWord 4#4 0#32] } := by
  rw [exec_of_refused i s .eHalted hf, raiseFault_of_fault _ s hp]
  rfl

/-! ## CHUNK_START -/

theorem encode_chunkStart (tag : Tag) (n : Word) :
    encode (.chunkStart tag n) = 0x20#8 ++ (tag.b0 ++ tag.b1 ++ tag.b2 ++ tag.b3 ++ n) :=
  BitVec.append_assoc

theorem wellFormed_eq_false_iff (t : Tag) :
    t.wellFormed = false ↔ 0x7F#8 < t.b0 ∨ 0x7F#8 < t.b1 ∨ 0x7F#8 < t.b2 ∨ 0x7F#8 < t.b3 := by
  simp only [← Bool.not_eq_true, wellFormed_iff, not_and_or, BitVec.not_le]

section
variable (tag : Tag) (n : Word) (s : State)

theorem exec_chunkStart_of_idle (hp : s.phase = .idle) (ht : tag.wellFormed = true) :
    exec (.chunkStart tag n) s = .next (respond (openChunk tag n s).rem (openChunk tag n s)) :=
  exec_of_performed _ s ((execFault_chunkStart_eq_none_iff tag n s).2 ⟨hp, ht⟩)

theorem execFault_chunkStart_of_idle (hp : s.phase = .idle) (ht : tag.wellFormed = false) :
    execFault (.chunkStart tag n) s = some .eTag := by
  simp [execFault, phaseFault_of_legal .idle s hp nofun, tagRefused_eq, ht]

theorem execFault_chunkStart_of_payload (hp : s.phase = .payload) :
    execFault (.chunkStart tag n) s = some .eState := by
  rw [execFault, phaseFault_of_other .idle s (by simp [hp]) (by simp [hp]), Option.some_or]

theorem execFault_chunkStart_of_fault (hp : s.phase = .fault) :
    execFault (.chunkStart tag n) s = some .eHalted := by
  rw [execFault, phaseFault_of_fault .idle s hp, Option.some_or]

end

/-- The remainder of an IEND chunk, which has no payload (41_chunk.md R101). -/
theorem crcBytes_tagIEND : crcBytes Config.seed (tagBytes tagIEND) = 0x51BD9F7D#32 := by decide +kernel

/-- Settles O6: in IDLE the tag decides, in the other phases the phase does. -/
theorem chunkStartOpensChunk : Obligations.ChunkStartOpensChunk := by
  unfold Obligations.ChunkStartOpensChunk
  refine ⟨encode_chunkStart, fun tag s hp h0 h1 h2 h3 => ?_, fun tag n s hp hn h0 h1 h2 h3 => ?_,
    fun tag n s hp ht => ?_, fun tag n s hp => ?_, fun tag n s hp => ?_, ?_⟩
  · rw [exec_chunkStart_of_idle tag _ s hp ((wellFormed_iff tag).2 ⟨h0, h1, h2, h3⟩), openChunk_zero, ← hp,
      ← List.append_assoc, ← List.append_assoc]
    rfl
  · rw [exec_chunkStart_of_idle tag n s hp ((wellFormed_iff tag).2 ⟨h0, h1, h2, h3⟩), openChunk_pos tag n s hn,
      ← List.append_assoc]
    rfl
  · exact exec_of_refused_running _ s .eTag (by simp [hp])
      (execFault_chunkStart_of_idle tag n s hp ((wellFormed_eq_false_iff tag).2 ht))
  · exact exec_of_refused_running _ s .eState (by simp [hp]) (execFault_chunkStart_of_payload tag n s hp)
  · exact exec_of_refused_halted _ s hp (execFault_chunkStart_of_fault tag n s hp)
  · rw [exec_chunkStart_of_idle tagIEND _ State.reset rfl (by decide), openChunk_zero, crc32, crcBytes_tagIEND]
    rfl

/-! ## CHUNK_DATA -/

theorem encode_chunkData (d : Byte) : encode (.chunkData d) = 0x210000000000000000#72 ||| d.setWidth 72 := by
  have hword : 0x210000000000000000#72 = cmdWord 0x21#8 0#32 0#32 := by decide
  rw [hword, setWidth_byte_eq_cmdWord, cmdWord_or, BitVec.or_zero, BitVec.or_zero, BitVec.zero_or, encode]

section
variable (d : Byte) (s : State)

theorem exec_chunkData_of_payload (hp : s.phase = .payload) :
    exec (.chunkData d) s = .next (respond (feedChunk d s).rem (feedChunk d s)) :=
  exec_of_performed _ s ((execFault_chunkData_eq_none_iff d s).2 hp)

theorem exec_chunkData_more (hp : s.phase = .payload) (hr : s.rem ≠ 1#32) :
    exec (.chunkData d) s =
      .next { s with
        crc := crcUpdate s.crc d, rem := s.rem - 1#32, out := s.out ++ [d],
        responses := s.responses ++ [respWord 0#4 (s.rem - 1#32)] } := by
  rw [exec_chunkData_of_payload d s hp, feedChunk_more d s hr]
  rfl

theorem exec_chunkData_last (hp : s.phase = .payload) (hr : s.rem = 1#32) :
    exec (.chunkData d) s =
      .next { s with
        crc := crcUpdate s.crc d, rem := 0#32, phase := .idle,
        out := s.out ++ (d :: be32 (not32 (crcUpdate s.crc d))),
        responses := s.responses ++ [respWord 0#4 0#32] } := by
  rw [exec_chunkData_of_payload d s hp, feedChunk_last d s hr]
  rfl

end

/-- Settles O7: in PAYLOAD the byte is the last one or not, in the other phases and with reserved bits it is refused. -/
theorem chunkDataSuppliesByte : Obligations.ChunkDataSuppliesByte := by
  unfold Obligations.ChunkDataSuppliesByte
  refine ⟨encode_chunkData, fun d s hp _ hr => exec_chunkData_more d s hp hr, fun d s hp hr => ?_, fun d s hp => ?_,
    fun d s hp => ?_, fun s a b h => ?_, fun s hp hc hr => ?_⟩
  · rw [exec_chunkData_last d s hp hr, List.append_assoc]
    rfl
  · exact exec_of_refused_running _ s .eState (by simp [hp])
      (phaseFault_of_other .payload s (by simp [hp]) (by simp [hp]))
  · exact exec_of_refused_halted _ s hp (phaseFault_of_fault .payload s hp)
  · exact acceptWord_of_error _ s .reservedBits (by simpa [decode] using decodeByte_of_reserved a b .chunkData h)
  · have hc1 : crcUpdate s.crc 0x01#8 = 0xA0C0B281#32 := by rw [hc]; decide
    have hc2 : crcUpdate 0xA0C0B281#32 0x02#8 = 0x74111228#32 := by decide
    have hc3 : crcUpdate 0x74111228#32 0x03#8 = 0xACC8E852#32 := by decide
    have htrailer : be32 (not32 0xACC8E852#32) = [0x53#8, 0x37#8, 0x17#8, 0xAD#8] := by decide
    refine ⟨_, _, _, exec_chunkData_more 0x01#8 s hp (by rw [hr]; decide),
      exec_chunkData_more 0x02#8 _ hp (by simp [hr]), exec_chunkData_last 0x03#8 _ hp (by simp [hr]), ?_⟩
    simp [hc1, hc2, hc3, htrailer, hr, hp]

end Sys2Proof.Machine
end

section
/-! SUPPORT. The commands RESET and STATUS (42_system.md R120, R121). -/

namespace Sys2Proof.Machine

theorem exec_reset (s : State) : exec .reset s = .next (respond 0#32 (resetRegisters s)) :=
  exec_of_performed .reset s rfl

theorem exec_status (s : State) :
    exec .status s = .next { s with responses := s.responses ++ [respWord 0#4 (statusWord s)] } :=
  exec_of_performed .status s rfl

/-! ## RESET -/

theorem encode_reset : encode .reset = 0x010000000000000000#72 := by decide

/-- RESET and STATUS are the only commands that complete in FAULT (60_exceptions.md R154). -/
theorem execFault_of_fault (i : Instr) (s : State) (hp : s.phase = .fault) (hreset : i ≠ .reset)
    (hstatus : i ≠ .status) : execFault i s = some .eHalted := by
  cases i with
  | reset => exact absurd rfl hreset
  | status => exact absurd rfl hstatus
  | crcInit | crcByte d | crcRead | chunkData d => exact phaseFault_of_fault _ s hp
  | chunkStart tag n => exact execFault_chunkStart_of_fault tag n s hp

/-- In FAULT a command word other than RESET adds a response and does nothing else (60_exceptions.md R159). -/
theorem acceptWord_of_fault (w : CmdWord) (s : State) (hp : s.phase = .fault) (hw : w ≠ encode .reset) :
    ∃ r, acceptWord w s = .next { s with responses := s.responses ++ [r] } := by
  cases hd : decode w with
  | error e => exact ⟨_, by rw [acceptWord_of_error w s e hd, raiseFault_of_fault _ s hp]⟩
  | ok i =>
    rw [acceptWord_of_ok w s i hd]
    have hreset : i ≠ .reset := fun hi => hw (hi ▸ (decode_eq_ok_iff w i).1 hd)
    by_cases hstatus : i = .status
    · subst hstatus
      exact ⟨_, exec_status s⟩
    · exact ⟨_, exec_of_refused_halted i s hp (execFault_of_fault i s hp hreset hstatus)⟩

/-- Settles O1: RESET is never refused, and `acceptWord_of_fault` says that every other word stays in FAULT. -/
theorem resetRestoresRegisters : Obligations.ResetRestoresRegisters := by
  unfold Obligations.ResetRestoresRegisters
  refine ⟨encode_reset, exec_reset, fun s t w hp ht hne => ?_, fun s a b h => ?_⟩
  · by_contra hw
    obtain ⟨r, hr⟩ := acceptWord_of_fault w s hp (encode_reset ▸ hw)
    rw [hr] at ht
    cases ht
    exact hne hp
  · exact acceptWord_of_error _ s .reservedBits (by simpa [decode] using decodePlain_of_reserved a b .reset h)

/-! ## STATUS -/

theorem statusWord_eq_append (s : State) : statusWord s = 0#24 ++ s.err ++ 0#2 ++ phaseCode s.phase := by
  have happend : ∀ (e : BitVec 4) (p : BitVec 2),
      (e.setWidth 32 <<< 4) ^^^ p.setWidth 32 = 0#24 ++ e ++ 0#2 ++ p := by decide
  exact happend s.err (phaseCode s.phase)

/-- The fields of the status word, least significant first. -/
theorem statusWord_fields (s : State) :
    (statusWord s).extractLsb' 0 2 = phaseCode s.phase ∧ (statusWord s).extractLsb' 2 2 = 0#2 ∧
      (statusWord s).extractLsb' 4 4 = s.err ∧ (statusWord s).extractLsb' 8 24 = 0#24 := by
  simp (disch := decide) only [statusWord_eq_append, BitVec.extractLsb'_append_eq_of_le,
    BitVec.extractLsb'_append_eq_of_add_le, Nat.reduceSub, BitVec.extractLsb'_eq_self, and_self]

theorem statusWord_mem_of_inv (s : State) (h : s.Inv) :
    statusWord s ∈ [0x00#32, 0x01#32, 0x12#32, 0x22#32, 0x32#32] := by
  cases hp : s.phase with
  | idle | payload => simp [statusWord, h.err_eq_zero s (by simp [hp]), hp, phaseCode]
  | fault =>
    obtain ⟨-, -, hfault, hmax⟩ := h
    have hcodes : ∀ e : BitVec 4, e ≠ 0#4 → e ≤ 3#4 → e = 1#4 ∨ e = 2#4 ∨ e = 3#4 := by decide
    rcases hcodes s.err (hfault.1 hp) hmax with he | he | he <;> simp [statusWord, hp, he, phaseCode]

theorem exists_inv_statusWord_eq (v : Word) (hv : v ∈ [0x00#32, 0x01#32, 0x12#32, 0x22#32, 0x32#32]) :
    ∃ s : State, s.Inv ∧ statusWord s = v := by
  simp only [List.mem_cons, List.not_mem_nil, or_false] at hv
  rcases hv with rfl | rfl | rfl | rfl | rfl
  · exact ⟨State.reset, by decide⟩
  · exact ⟨{ State.reset with phase := .payload, rem := 1#32 }, by decide⟩
  · exact ⟨{ State.reset with phase := .fault, err := 1#4 }, by decide⟩
  · exact ⟨{ State.reset with phase := .fault, err := 2#4 }, by decide⟩
  · exact ⟨{ State.reset with phase := .fault, err := 3#4 }, by decide⟩

/-- Settles O2: STATUS is never refused, and the fields of its value are those of `statusWord_fields`. -/
theorem statusAnswersPhaseAndErr : Obligations.StatusAnswersPhaseAndErr := by
  unfold Obligations.StatusAnswersPhaseAndErr
  refine ⟨by decide, fun s => ?_, fun v hv => ?_, fun s a b h => ?_⟩
  · obtain ⟨hphase, hzero, herr, hhigh⟩ := statusWord_fields s
    refine ⟨statusWord s, exec_status s, hphase.trans ?_, hzero, herr, hhigh, statusWord_mem_of_inv s⟩
    cases s.phase <;> rfl
  · obtain ⟨s, hinv, rfl⟩ := exists_inv_statusWord_eq v hv
    exact ⟨s, hinv, exec_status s⟩
  · exact acceptWord_of_error _ s .reservedBits (by simpa [decode] using decodePlain_of_reserved a b .status h)

end Sys2Proof.Machine
end

section
/-! SUPPORT. The host beside the block: a chunk read back, the payloads of an image, when no command is issued, and the
run of an image's commands (43_host_sequences.md sections 1 to 5 and 8). -/

namespace Sys2Proof.Machine

/-! ## Reading a chunk back -/

theorem ofBe32_extractLsb' (v : Word) :
    ofBe32 (v.extractLsb' 24 8) (v.extractLsb' 16 8) (v.extractLsb' 8 8) (v.extractLsb' 0 8) = v :=
  fieldOfTag_tagOfField v

/-- The length field says where the payload ends and the trailer begins. -/
theorem readChunk_fields (n : Word) (tag : Tag) (payload : List Byte) (c : Word) (h : n.toNat = payload.length) :
    readChunk (be32 n ++ tagBytes tag ++ payload ++ be32 c) = some ⟨tag, payload, c⟩ := by
  have hdrop : (payload ++ be32 c).drop n.toNat = be32 c := List.drop_left' h.symm
  have htake : (payload ++ be32 c).take n.toNat = payload := List.take_left' h.symm
  simp only [be32] at hdrop htake
  simp only [be32, tagBytes, List.cons_append, List.nil_append, readChunk, ofBe32_extractLsb', hdrop, htake]

theorem readChunk_makeChunk (tag : Tag) (payload : List Byte) (hl : payload.length ≤ 2 ^ 32 - 1) :
    readChunk (makeChunk tag payload) = some ⟨tag, payload, crc32 (tagBytes tag ++ payload)⟩ := by
  have hn : (BitVec.ofNat 32 payload.length).toNat = payload.length := by
    rw [BitVec.toNat_ofNat]
    exact Nat.mod_eq_of_lt (by omega)
  exact readChunk_fields _ tag payload _ hn

/-- Settles O44: the trailer read back is the CRC of the tag and payload read back. -/
theorem readBackChunkChecks : Obligations.ReadBackChunkChecks := by
  unfold Obligations.ReadBackChunkChecks
  intro tag payload hl
  exact ⟨_, readChunk_makeChunk tag payload hl, rfl, rfl, decide_eq_true rfl⟩

/-! ## The IHDR payload -/

theorem ihdrPayload_length (width height : Word) : (ihdrPayload width height).length = 13 := rfl

/-- Settles O46: the payload is a list of thirteen bytes, written out. -/
theorem ihdrPayloadLayout : Obligations.IhdrPayloadLayout := by
  unfold Obligations.IhdrPayloadLayout
  intro width height
  refine ⟨rfl, ihdrPayload_length width height, rfl, rfl, rfl, rfl, rfl, rfl, rfl, ?_⟩
  rw [chunkCommands, ihdrPayload_length]

/-! ## When the host issues no command -/

theorem valid_iff (img : RasterImage) :
    img.valid = true ↔
      img.width ≠ 0#32 ∧ img.height ≠ 0#32 ∧ img.pixels.length = img.width.toNat * img.height.toNat := by
  simp only [RasterImage.valid, Bool.and_eq_true, decide_eq_true_eq, and_assoc]

section
variable {ε : Type} {compress : List Byte → Except ε (List Byte)} {img : RasterImage}

theorem prepareImage_of_not_valid (hv : img.valid = false) : prepareImage compress img = .error .invalidDimensions := by
  simp [prepareImage, hv]

theorem prepareImage_of_compress_error {e : ε} (hv : img.valid = true) (hc : compress (scanlines img) = .error e) :
    prepareImage compress img = .error (.compressionFailure e) := by
  simp [prepareImage, hv, hc]

theorem prepareImage_of_compress_ok {z : List Byte} (hv : img.valid = true) (hc : compress (scanlines img) = .ok z) :
    prepareImage compress img = if payloadFits z then .ok z else .error .payloadTooLong := by
  simp [prepareImage, hv, hc]

theorem prepareImage_of_tooLong {z : List Byte} (hv : img.valid = true) (hc : compress (scanlines img) = .ok z)
    (hl : 2 ^ 32 - 1 < z.length) : prepareImage compress img = .error .payloadTooLong := by
  rw [prepareImage_of_compress_ok hv hc, if_neg fun h => absurd ((payloadFits_iff z).1 h) (by omega)]

theorem prepareImage_of_fits {z : List Byte} (hv : img.valid = true) (hc : compress (scanlines img) = .ok z)
    (hl : z.length ≤ 2 ^ 32 - 1) : prepareImage compress img = .ok z := by
  rw [prepareImage_of_compress_ok hv hc, if_pos ((payloadFits_iff z).2 hl)]

theorem prepareImage_eq_invalidDimensions_iff :
    prepareImage compress img = .error .invalidDimensions ↔ img.valid = false := by
  refine ⟨fun h => Bool.eq_false_iff.2 fun hv => ?_, prepareImage_of_not_valid⟩
  cases hc : compress (scanlines img) with
  | error e => rw [prepareImage_of_compress_error hv hc] at h; cases h
  | ok z =>
    rw [prepareImage_of_compress_ok hv hc] at h
    split at h <;> cases h

theorem hostCommands_of_error {e : HostError ε} (h : prepareImage compress img = .error e) :
    hostCommands compress img = .error e := by
  simp only [hostCommands, h]

theorem hostCommands_of_ok {z : List Byte} (h : prepareImage compress img = .ok z) :
    hostCommands compress img = .ok (imageCommands img.width img.height z) := by
  simp only [hostCommands, h]

theorem encodePng_of_ok {z : List Byte} (h : prepareImage compress img = .ok z) :
    encodePng compress img = .ok (signature ++ imageChunks img.width img.height z) := by
  simp only [encodePng, h]

theorem hostCommands_eq_error_iff {e : HostError ε} :
    hostCommands compress img = .error e ↔ prepareImage compress img = .error e := by
  refine ⟨fun h => ?_, hostCommands_of_error⟩
  cases hp : prepareImage compress img with
  | error e' => rw [hostCommands_of_error hp] at h; cases h; rfl
  | ok z => rw [hostCommands_of_ok hp] at h; cases h

end

/-- Settles O49: the host's answer is that of its preparation, whose four cases exclude one another. -/
theorem hostErrorsIssueNoCommand : Obligations.HostErrorsIssueNoCommand := by
  unfold Obligations.HostErrorsIssueNoCommand
  intro ε compress img
  refine ⟨?_, fun e hv hc => hostCommands_of_error (prepareImage_of_compress_error hv hc),
    fun z hv hc hl => hostCommands_of_error (prepareImage_of_tooLong hv hc hl),
    fun z hv hc hl => hostCommands_of_ok (prepareImage_of_fits hv hc hl)⟩
  rw [hostCommands_eq_error_iff, prepareImage_eq_invalidDimensions_iff, Bool.eq_false_iff, Ne, valid_iff,
    not_and_or, not_and_or, not_ne_iff, not_ne_iff]

/-! ## The commands of an image -/

theorem chunkCommands_length (tag : Tag) (payload : List Byte) :
    (chunkCommands tag payload).length = payload.length + 1 := by
  simp [chunkCommands]

theorem imageCommands_length (width height : Word) (z : List Byte) :
    (imageCommands width height z).length = z.length + 16 := by
  simp only [imageCommands, List.length_append, chunkCommands_length, ihdrPayload_length, List.length_nil]
  omega

theorem imageChunks_length (width height : Word) (z : List Byte) :
    (imageChunks width height z).length = z.length + 49 := by
  simp only [imageChunks, List.length_append, makeChunk_length, ihdrPayload_length, List.length_nil]
  omega

theorem makeChunk_IEND :
    makeChunk tagIEND [] =
      [0x00#8, 0x00#8, 0x00#8, 0x00#8, 0x49#8, 0x45#8, 0x4E#8, 0x44#8, 0xAE#8, 0x42#8, 0x60#8, 0x82#8] := by
  rw [makeChunk, List.append_nil, List.append_nil, crc32, crcBytes_tagIEND]
  decide

theorem imageChunks_drop (width height : Word) (z : List Byte) :
    (imageChunks width height z).drop (z.length + 37) = makeChunk tagIEND [] := by
  refine List.drop_left' ?_
  simp only [List.length_append, makeChunk_length, ihdrPayload_length]
  omega

theorem respCode_of_mem_chunkResponses (n k : Nat) (r : RespWord) (h : r ∈ chunkResponses n k) : respCode r = 0#4 := by
  obtain ⟨j, -, rfl⟩ := List.mem_map.1 h
  exact respCode_respWord 0#4 _

/-- The commands of chunks, one chunk after the other. -/
def chunksCommands (chunks : List (Tag × List Byte)) : List Instr := chunks.flatMap fun c => chunkCommands c.1 c.2

/-- The bytes of whole chunks, one after the other; `run_chunksCommands` ties it to the commands. -/
def chunksBytes (chunks : List (Tag × List Byte)) : List Byte := chunks.flatMap fun c => makeChunk c.1 c.2

theorem chunksCommands_cons (c : Tag × List Byte) (chunks : List (Tag × List Byte)) :
    chunksCommands (c :: chunks) = chunkCommands c.1 c.2 ++ chunksCommands chunks := List.flatMap_cons

theorem chunksBytes_cons (c : Tag × List Byte) (chunks : List (Tag × List Byte)) :
    chunksBytes (c :: chunks) = makeChunk c.1 c.2 ++ chunksBytes chunks := List.flatMap_cons

/-- A chunk that the block accepts and the length field can hold (41_chunk.md R102, R103). -/
abbrev ChunkFits (c : Tag × List Byte) : Prop := c.1.wellFormed = true ∧ c.2.length ≤ 2 ^ 32 - 1

/-- From an IDLE state the commands of chunks are accepted in full, append the chunks, and end in IDLE. -/
theorem run_chunksCommands (chunks : List (Tag × List Byte)) (hfits : ∀ c ∈ chunks, ChunkFits c) (s : State)
    (rest : List Event) (hs : s.phase = .idle) (hp : s.port = commandEvents (chunksCommands chunks) ++ rest) :
    ∃ t rs, run (chunksCommands chunks).length s = .next t ∧ t.phase = .idle ∧ t.err = s.err ∧
      t.out = s.out ++ chunksBytes chunks ∧ t.responses = s.responses ++ rs ∧
      rs.length = (chunksCommands chunks).length ∧ ∀ r ∈ rs, respCode r = 0#4 := by
  induction chunks generalizing s with
  | nil => exact ⟨s, [], rfl, hs, rfl, (List.append_nil _).symm, (List.append_nil _).symm, rfl, nofun⟩
  | cons c chunks ih =>
    obtain ⟨⟨ht, hl⟩, hfits⟩ := List.forall_mem_cons.1 hfits
    rw [chunksCommands_cons, commandEvents_append, List.append_assoc] at hp
    have hfirst := run_chunkCommands s c.1 c.2 _ hs ht hl hp
    obtain ⟨t, rs, hrun, hphase, herr, hout, hresponses, hlen, hcode⟩ := ih hfits (chunkClosed s c.1 c.2 _) rfl rfl
    refine ⟨t, chunkResponses c.2.length c.2.length ++ rs, ?_, hphase, herr, ?_, ?_, ?_, ?_⟩
    · rw [chunksCommands_cons, List.length_append, chunkCommands_length, run_add _ _ s _ hfirst, hrun]
    · rw [hout, chunksBytes_cons, ← List.append_assoc, chunkClosed]
    · rw [hresponses, ← List.append_assoc, chunkClosed]
    · rw [chunksCommands_cons, List.length_append, List.length_append, hlen, chunkCommands_length, chunkResponses,
        List.length_map, List.length_range]
    · intro r hr
      exact (List.mem_append.1 hr).elim (respCode_of_mem_chunkResponses _ _ r) (hcode r)

/-- The three chunks of an image as pairs of tag and payload; `imageCommands_eq` and `imageChunks_eq` tie it to the
host. -/
def imageParts (width height : Word) (z : List Byte) : List (Tag × List Byte) :=
  [(tagIHDR, ihdrPayload width height), (tagIDAT, z), (tagIEND, [])]

theorem imageCommands_eq (width height : Word) (z : List Byte) :
    imageCommands width height z = chunksCommands (imageParts width height z) := by
  simp [imageCommands, chunksCommands, imageParts]

theorem imageChunks_eq (width height : Word) (z : List Byte) :
    imageChunks width height z = chunksBytes (imageParts width height z) := by
  simp [imageChunks, chunksBytes, imageParts]

theorem imageParts_fit (width height : Word) (z : List Byte) (hl : z.length ≤ 2 ^ 32 - 1) :
    ∀ c ∈ imageParts width height z, ChunkFits c := by
  have hihdr : (ihdrPayload width height).length ≤ 2 ^ 32 - 1 := by rw [ihdrPayload_length]; decide
  simp only [imageParts, List.forall_mem_cons]
  exact ⟨⟨rfl, hihdr⟩, ⟨rfl, hl⟩, ⟨rfl, Nat.zero_le _⟩, nofun⟩

/-- Settles O48: the commands append `imageChunks`, which the encoded file has behind the signature. -/
theorem imageCommandsEmitFile : Obligations.ImageCommandsEmitFile := by
  unfold Obligations.ImageCommandsEmitFile
  intro ε compress img z s hv hc hl hs
  have hprepared := prepareImage_of_fits hv hc hl
  refine ⟨_, hostCommands_of_ok hprepared, imageCommands_length img.width img.height z, fun hp => ?_⟩
  rw [imageCommands_eq] at hp ⊢
  obtain ⟨t, rs, hrun, hphase, herr, hout, hresponses, hlen, hcode⟩ :=
    run_chunksCommands _ (imageParts_fit img.width img.height z hl) s [] hs (by rw [hp, List.append_nil])
  rw [← imageChunks_eq] at hout
  refine ⟨t, imageChunks img.width img.height z, hrun, hphase, herr, ⟨rs, hresponses, hlen, hcode⟩, hout,
    imageChunks_length img.width img.height z, encodePng_of_ok hprepared, ?_⟩
  rw [imageChunks_drop, makeChunk_IEND]

end Sys2Proof.Machine
end

section
/-! SUPPORT. The scanline buffer (43_host_sequences.md R133): rows of one length, in them pixels of three bytes. -/

namespace Sys2Proof.Machine

/-! ## Blocks of one length, one after the other -/

section
variable {α : Type} (f : Nat → List α) (n : Nat)

theorem flatMap_range_succ (m : Nat) : (List.range (m + 1)).flatMap f = (List.range m).flatMap f ++ f m := by
  rw [List.range_succ, List.flatMap_append, List.flatMap_singleton]

theorem length_flatMap_range (m : Nat) (hf : ∀ k < m, (f k).length = n) :
    ((List.range m).flatMap f).length = m * n := by
  induction m with
  | zero => simp
  | succ m ih =>
    rw [flatMap_range_succ, List.length_append, ih fun k hk => hf k (by omega), hf m (by omega), Nat.succ_mul]

theorem getElem?_flatMap_range (m : Nat) (hf : ∀ k < m, (f k).length = n) (k j : Nat) (hk : k < m) (hj : j < n) :
    ((List.range m).flatMap f)[k * n + j]? = (f k)[j]? := by
  induction m with
  | zero => omega
  | succ m ih =>
    have hf' : ∀ k < m, (f k).length = n := fun k hk => hf k (by omega)
    have hlen := length_flatMap_range f n m hf'
    rw [flatMap_range_succ]
    rcases Nat.lt_succ_iff_lt_or_eq.1 hk with hlt | rfl
    · have hin : k * n + j < m * n := Nat.mul_comm n k ▸ Nat.mul_add_lt_mul_of_lt_of_lt hlt hj
      rw [List.getElem?_append_left (by rw [hlen]; exact hin), ih hf' hlt]
    · rw [List.getElem?_append_right (by omega), hlen, Nat.add_sub_cancel_left]

end

/-! ## Rows and pixels -/

/-- Row `y` of the scanline buffer: `scanlines_eq`. -/
def scanRow (img : RasterImage) (y : Nat) : List Byte :=
  0x00#8 :: (List.range img.width.toNat).flatMap fun x => pixelBytes img.pixels (y * img.width.toNat + x)

theorem scanlines_eq (img : RasterImage) : scanlines img = (List.range img.height.toNat).flatMap (scanRow img) := rfl

theorem pixelBytes_of_getElem? {pixels : List Pixel} {k : Nat} {p : Pixel} (h : pixels[k]? = some p) :
    pixelBytes pixels k = [p.r, p.g, p.b] := by
  simp only [pixelBytes, h]

section
variable (img : RasterImage) (hv : img.valid = true) (y : Nat) (hy : y < img.height.toNat)
include hv hy

/-- A valid image has a pixel at each place. -/
theorem exists_pixel (x : Nat) (hx : x < img.width.toNat) : ∃ p, img.pixels[y * img.width.toNat + x]? = some p := by
  obtain ⟨-, -, hcount⟩ := (valid_iff img).1 hv
  have hin : y * img.width.toNat + x < img.pixels.length := by
    rw [hcount, Nat.mul_comm y, Nat.mul_comm _ img.height.toNat]
    exact Nat.mul_add_lt_mul_of_lt_of_lt hy hx
  exact ⟨_, List.getElem?_eq_getElem hin⟩

theorem pixelBytes_length (x : Nat) (hx : x < img.width.toNat) :
    (pixelBytes img.pixels (y * img.width.toNat + x)).length = 3 := by
  obtain ⟨p, hp⟩ := exists_pixel img hv y hy x hx
  rw [pixelBytes_of_getElem? hp]
  rfl

theorem scanRow_length : (scanRow img y).length = 1 + 3 * img.width.toNat := by
  rw [scanRow, List.length_cons, length_flatMap_range _ 3 _ (pixelBytes_length img hv y hy)]
  omega

/-- Byte `j` of pixel `x` of a row stands behind the filter byte and the pixels before it. -/
theorem scanRow_getElem? (x j : Nat) (hx : x < img.width.toNat) (hj : j < 3) :
    (scanRow img y)[1 + 3 * x + j]? = (pixelBytes img.pixels (y * img.width.toNat + x))[j]? := by
  rw [scanRow, show 1 + 3 * x + j = x * 3 + j + 1 by omega, List.getElem?_cons_succ]
  exact getElem?_flatMap_range _ 3 _ (pixelBytes_length img hv y hy) x j hx hj

end

theorem scanlines_length (img : RasterImage) (hv : img.valid = true) :
    (scanlines img).length = img.height.toNat * (1 + 3 * img.width.toNat) :=
  length_flatMap_range _ _ _ (scanRow_length img hv)

theorem scanlines_getElem? (img : RasterImage) (hv : img.valid = true) (y k : Nat) (hy : y < img.height.toNat)
    (hk : k < 1 + 3 * img.width.toNat) :
    (scanlines img)[y * (1 + 3 * img.width.toNat) + k]? = (scanRow img y)[k]? :=
  getElem?_flatMap_range _ _ _ (scanRow_length img hv) y k hy hk

theorem scanlines_pixel (img : RasterImage) (hv : img.valid = true) (y x j : Nat) (hy : y < img.height.toNat)
    (hx : x < img.width.toNat) (hj : j < 3) :
    (scanlines img)[y * (1 + 3 * img.width.toNat) + (1 + 3 * x + j)]? =
      (pixelBytes img.pixels (y * img.width.toNat + x))[j]? := by
  rw [scanlines_getElem? img hv y _ hy (by omega), scanRow_getElem? img hv y hy x j hx hj]

/-- Settles O47: the buffer is rows of one length, a row is the filter byte and pixels of three bytes. -/
theorem scanlineBufferLayout : Obligations.ScanlineBufferLayout := by
  unfold Obligations.ScanlineBufferLayout
  intro img hv
  refine ⟨scanlines_length img hv, fun y hy => ⟨scanlines_getElem? img hv y 0 hy (by omega), fun x hx => ?_⟩⟩
  obtain ⟨p, hp⟩ := exists_pixel img hv y hy x hx
  have hbyte (j : Nat) (hj : j < 3) := scanlines_pixel img hv y x j hy hx hj
  rw [pixelBytes_of_getElem? hp] at hbyte
  refine ⟨p, hp, ?_, ?_, ?_⟩
  · rw [Nat.add_assoc]
    exact hbyte 0 (by omega)
  · rw [show y * (1 + 3 * img.width.toNat) + 2 + 3 * x = y * (1 + 3 * img.width.toNat) + (1 + 3 * x + 1) by omega]
    exact hbyte 1 (by omega)
  · rw [show y * (1 + 3 * img.width.toNat) + 3 + 3 * x = y * (1 + 3 * img.width.toNat) + (1 + 3 * x + 2) by omega]
    exact hbyte 2 (by omega)

end Sys2Proof.Machine
end

section
/-! SUPPORT. A run without RESET in which every command is performed emits whole chunks (43_host_sequences.md R144). -/

namespace Sys2Proof.Machine

theorem chunksBytes_concat (chunks : List (Tag × List Byte)) (c : Tag × List Byte) :
    chunksBytes (chunks ++ [c]) = chunksBytes chunks ++ makeChunk c.1 c.2 := by
  simp [chunksBytes]

/-- Behind the bytes `base` stand whole chunks. -/
def WholeChunks (base out : List Byte) : Prop :=
  ∃ chunks : List (Tag × List Byte), (∀ c ∈ chunks, ChunkFits c) ∧ out = base ++ chunksBytes chunks

theorem wholeChunks_refl (base : List Byte) : WholeChunks base base := ⟨[], nofun, (List.append_nil base).symm⟩

theorem WholeChunks.append_makeChunk {base out : List Byte} (h : WholeChunks base out) {tag : Tag} {payload : List Byte}
    (hc : ChunkFits (tag, payload)) : WholeChunks base (out ++ makeChunk tag payload) := by
  obtain ⟨chunks, hfits, rfl⟩ := h
  refine ⟨chunks ++ [(tag, payload)], List.forall_mem_append.2 ⟨hfits, List.forall_mem_singleton.2 hc⟩, ?_⟩
  rw [chunksBytes_concat, List.append_assoc]

/-- No chunk has been lost since OUT held `base`: behind it stand whole chunks, and in PAYLOAD the open one. -/
def State.Unbroken (base : List Byte) (s : State) : Prop :=
  (s.phase = .idle ∧ WholeChunks base s.out) ∨
    (s.phase = .payload ∧ ∃ front tag n sent, WholeChunks base front ∧ s.OpenChunk front tag n sent)

theorem State.Unbroken.wholeChunks_of_idle {base : List Byte} {s : State} (h : s.Unbroken base) (hp : s.phase = .idle) :
    WholeChunks base s.out := by
  rcases h with ⟨-, h⟩ | ⟨hp', -⟩
  · exact h
  · rw [hp] at hp'; cases hp'

theorem State.Unbroken.openChunk_of_payload {base : List Byte} {s : State} (h : s.Unbroken base)
    (hp : s.phase = .payload) : ∃ front tag n sent, WholeChunks base front ∧ s.OpenChunk front tag n sent := by
  rcases h with ⟨hp', -⟩ | ⟨-, h⟩
  · rw [hp] at hp'; cases hp'
  · exact h

theorem State.Unbroken.of_eq {base : List Byte} {s t : State} (h : s.Unbroken base) (hphase : t.phase = s.phase)
    (hrem : t.rem = s.rem) (hcrc : t.crc = s.crc) (hout : t.out = s.out) : t.Unbroken base := by
  rcases h with ⟨hp, h⟩ | ⟨hp, front, tag, n, sent, hfront, h⟩
  · exact .inl ⟨hphase.trans hp, hout ▸ h⟩
  · exact .inr ⟨hphase.trans hp, front, tag, n, sent, hfront, h.tag_wellFormed, hrem ▸ h.rem_ne_zero,
      hrem ▸ h.sent_add_rem, hcrc.trans h.crc_eq, hout.trans h.out_eq⟩

/-! ## Commands that are performed keep OUT unbroken -/

theorem openChunk_unbroken {base : List Byte} (tag : Tag) (n : Word) (s : State) (ht : tag.wellFormed = true)
    (h : WholeChunks base s.out) : (openChunk tag n s).Unbroken base := by
  by_cases hn : n = 0#32
  · subst hn
    rw [openChunk_zero]
    have hwhole := h.append_makeChunk (tag := tag) (payload := []) ⟨ht, Nat.zero_le _⟩
    exact .inl ⟨rfl, by simpa [makeChunk] using hwhole⟩
  · rw [openChunk_pos tag n s hn]
    exact .inr ⟨rfl, s.out, tag, n, [], h, ht, hn, by simp, by simp, by simp [openBytes]⟩

/-- The last payload byte and the trailer make the open chunk a whole one. -/
theorem feedChunk_last_out (d : Byte) (s : State) {front : List Byte} {tag : Tag} {n : Word} {sent : List Byte}
    (h : s.OpenChunk front tag n sent) (hr : s.rem = 1#32) :
    (sent ++ [d]).length = n.toNat ∧ (feedChunk d s).out = front ++ makeChunk tag (sent ++ [d]) := by
  have hlen : (sent ++ [d]).length = n.toNat := by simp [← h.sent_add_rem, hr]
  have hcrc : not32 (crcUpdate s.crc d) = crc32 (tagBytes tag ++ (sent ++ [d])) := by
    rw [h.crc_eq, ← crcBytes_concat, List.append_assoc, crc32]
  refine ⟨hlen, ?_⟩
  rw [feedChunk_last d s hr, hcrc, h.out_eq, makeChunk_eq_openBytes tag n _ hlen, openBytes_concat]
  simp

theorem feedChunk_unbroken {base : List Byte} (d : Byte) (s : State) (hp : s.phase = .payload) (h : s.Unbroken base) :
    (feedChunk d s).Unbroken base := by
  obtain ⟨front, tag, n, sent, hfront, hopen⟩ := h.openChunk_of_payload hp
  by_cases hr : s.rem = 1#32
  · obtain ⟨hlen, hout⟩ := feedChunk_last_out d s hopen hr
    have hphase : (feedChunk d s).phase = .idle := by rw [feedChunk_last d s hr]
    have hfits : ChunkFits (tag, sent ++ [d]) := ⟨hopen.tag_wellFormed, hlen.trans_le (Nat.le_pred_of_lt n.isLt)⟩
    exact .inl ⟨hphase, hout ▸ hfront.append_makeChunk hfits⟩
  · have hphase : (feedChunk d s).phase = .payload := by rw [feedChunk_more d s hr, hp]
    exact .inr ⟨hphase, front, tag, n, sent ++ [d], hfront, feedChunk_more_openChunk d s hopen hr⟩

theorem perform_unbroken {base : List Byte} (i : Instr) (s : State) (h : s.Unbroken base) (hi : i ≠ .reset)
    (hf : execFault i s = none) : (perform i s).Unbroken base := by
  cases i with
  | reset => exact absurd rfl hi
  | status | crcRead => exact h
  | crcInit | crcByte d =>
    have hp : s.phase = .idle := (phaseFault_eq_none_iff .idle s nofun).1 hf
    exact .inl ⟨hp, h.wholeChunks_of_idle hp⟩
  | chunkStart tag n =>
    obtain ⟨hp, ht⟩ := (execFault_chunkStart_eq_none_iff tag n s).1 hf
    exact openChunk_unbroken tag n s ht (h.wholeChunks_of_idle hp)
  | chunkData d => exact feedChunk_unbroken d s ((execFault_chunkData_eq_none_iff d s).1 hf) h

/-- A command word other than RESET gives one response, and where its code is 0 keeps OUT unbroken. -/
theorem acceptWord_unbroken {base : List Byte} (w : CmdWord) (s : State) (hw : w ≠ encode .reset) :
    ∃ t r, acceptWord w s = .next t ∧ t.port = s.port ∧ t.responses = s.responses ++ [r] ∧
      (respCode r = 0#4 → s.Unbroken base → t.Unbroken base) := by
  cases hf : wordFault w s with
  | some c =>
    obtain ⟨-, -, -, hport, -, hresponses⟩ := raiseFault_frame c s
    have hcode : respCode (respWord (faultCode c) 0#32) ≠ 0#4 := by
      rw [respCode_respWord]
      exact faultCode_ne_zero c
    exact ⟨raiseFault c s, _, acceptWord_of_refused w s c hf, hport, hresponses, fun hz => absurd hz hcode⟩
  | none =>
    obtain ⟨i, hd, hi, haccept⟩ := acceptWord_of_performed w s hf
    obtain ⟨hport, hresponses⟩ := perform_frame i s
    have hne : i ≠ .reset := fun h => hw (by rw [(decode_eq_ok_iff w i).1 hd, h])
    exact ⟨_, _, haccept, hport, by rw [respond_responses, hresponses],
      fun _ h => (perform_unbroken i s h hne hi).of_eq rfl rfl rfl rfl⟩

/-! ## The run -/

theorem run_words_unbroken {base : List Byte} (ws : List CmdWord) (s : State) (rest : List Event)
    (hp : s.port = ws.map .command ++ rest) (hws : encode .reset ∉ ws) :
    ∃ t rs, run ws.length s = .next t ∧ t.responses = s.responses ++ rs ∧
      ((∀ r ∈ rs, respCode r = 0#4) → s.Unbroken base → t.Unbroken base) := by
  induction ws generalizing s with
  | nil => exact ⟨s, [], rfl, (List.append_nil _).symm, fun _ h => h⟩
  | cons w ws ih =>
    obtain ⟨hw, hws⟩ := not_or.1 (mt List.mem_cons.2 hws)
    obtain ⟨u, r, haccept, hport, hresponses, hkeep⟩ :=
      acceptWord_unbroken (base := base) w { s with port := ws.map .command ++ rest } (Ne.symm hw)
    obtain ⟨t, rs, hrun, hresponses', hkeep'⟩ := ih u hport hws
    refine ⟨t, r :: rs, (run_command ws.length s u w _ hp haccept).trans hrun, ?_, fun hcodes h => ?_⟩
    · rw [hresponses', hresponses, List.append_assoc, List.singleton_append]
    · obtain ⟨hcode, hcodes⟩ := List.forall_mem_cons.1 hcodes
      exact hkeep' hcodes (hkeep hcode (h.of_eq rfl rfl rfl rfl))

theorem runComplete_iff (s t : State) (rs : List RespWord) (h : t.responses = s.responses ++ rs) :
    runComplete s t = true ↔ t.phase = .idle ∧ t.err = 0#4 ∧ ∀ r ∈ rs, respCode r = 0#4 := by
  simp only [runComplete, runResponses, h, List.drop_left, Bool.and_eq_true, decide_eq_true_eq, List.all_eq_true,
    and_assoc]

/-- Settles O45: no command of a complete run was refused, so OUT stayed unbroken, and the run ends in IDLE. -/
theorem completeRunIsWholeChunks : Obligations.CompleteRunIsWholeChunks := by
  unfold Obligations.CompleteRunIsWholeChunks
  intro s t ws rest hs hp hws hrun hcomplete
  obtain ⟨hidle, -⟩ := hs
  obtain ⟨t', rs, hrun', hresponses, hkeep⟩ := run_words_unbroken (base := s.out) ws s rest hp hws
  cases hrun.symm.trans hrun'
  obtain ⟨hphase, -, hcodes⟩ := (runComplete_iff s t rs hresponses).1 hcomplete
  exact (hkeep hcodes (.inl ⟨hidle, wholeChunks_refl s.out⟩)).wholeChunks_of_idle hphase

end Sys2Proof.Machine
end

section
/-! SUPPORT. The faults (60_exceptions.md sections 1 to 3): which word raises which, what fault entry writes, and that
only RESET leaves FAULT. -/

namespace Sys2Proof.Machine

/-! ## The code answered names the check that failed -/

theorem faultCode_injective : Function.Injective faultCode := by
  intro c d h
  cases c <;> cases d <;> simp [faultCode] at h ⊢

theorem lastCode_raiseFault_eq_faultCode_iff (c d : FaultCode) (s : State) :
    lastCode (raiseFault d s) = some (faultCode c) ↔ d = c := by
  rw [lastCode_raiseFault, Option.some_inj, faultCode_injective.eq_iff]

theorem lastCode_respond_ne_faultCode (c : FaultCode) (v : Word) (s : State) :
    lastCode (respond v s) ≠ some (faultCode c) := by
  rw [lastCode_respond]
  exact fun h => faultCode_ne_zero c (Option.some.inj h).symm

/-- A decoded command answers a fault's code exactly when that is its first failing check. -/
theorem lastCode_exec_eq_faultCode_iff (i : Instr) (s t : State) (c : FaultCode) (h : exec i s = .next t) :
    lastCode t = some (faultCode c) ↔ execFault i s = some c := by
  rcases exec_next_cases i s t h with ⟨d, hd, rfl⟩ | ⟨hnone, rfl⟩
  · rw [hd, lastCode_raiseFault_eq_faultCode_iff, Option.some_inj]
  · rw [hnone]
    exact iff_of_false (lastCode_respond_ne_faultCode c _ _) nofun

/-- `acceptWord` in its two cases, as a fact about the next state. -/
theorem acceptWord_next_cases (w : CmdWord) (s t : State) (h : acceptWord w s = .next t) :
    (∃ c, wordFault w s = some c ∧ t = raiseFault c s) ∨
    (wordFault w s = none ∧ ∃ i, decode w = .ok i ∧ t = respond (performedValue i s) (perform i s)) := by
  cases hf : wordFault w s with
  | some c =>
    rw [acceptWord_of_refused w s c hf] at h; cases h
    exact .inl ⟨c, rfl, rfl⟩
  | none =>
    obtain ⟨i, hd, -, hw⟩ := acceptWord_of_performed w s hf
    rw [hw] at h; cases h
    exact .inr ⟨rfl, i, hd, rfl⟩

/-- A command word answers a fault's code exactly when that is its first failing check. -/
theorem lastCode_acceptWord_eq_faultCode_iff (w : CmdWord) (s t : State) (c : FaultCode)
    (h : acceptWord w s = .next t) : lastCode t = some (faultCode c) ↔ wordFault w s = some c := by
  rcases acceptWord_next_cases w s t h with ⟨d, hd, rfl⟩ | ⟨hnone, i, -, rfl⟩
  · rw [hd, lastCode_raiseFault_eq_faultCode_iff, Option.some_inj]
  · rw [hnone]
    exact iff_of_false (lastCode_respond_ne_faultCode c _ _) nofun

/-! ## Which check of a decoded command fails -/

theorem phaseFault_idle_eq_eState_iff (s : State) : phaseFault .idle s = some .eState ↔ s.phase = .payload := by
  cases hp : s.phase <;> simp [phaseFault, hp]

theorem phaseFault_payload_eq_eState_iff (s : State) : phaseFault .payload s = some .eState ↔ s.phase = .idle := by
  cases hp : s.phase <;> simp [phaseFault, hp]

/-- The phase check finds E_HALTED or E_STATE, nothing else. -/
theorem phaseFault_ne_some (legal : Phase) (s : State) (c : FaultCode) (hhalted : c ≠ .eHalted) (hstate : c ≠ .eState) :
    phaseFault legal s ≠ some c := by
  unfold phaseFault
  split_ifs
  · simpa using hhalted.symm
  · simp
  · simpa using hstate.symm

/-- Checks 3 to 5 never find E_OPCODE, which is left to the decoder (60_exceptions.md R151). -/
theorem execFault_ne_eOpcode (i : Instr) (s : State) : execFault i s ≠ some .eOpcode := by
  cases i with
  | reset | status => exact nofun
  | crcInit | crcByte d | crcRead | chunkData d => exact phaseFault_ne_some _ s _ nofun nofun
  | chunkStart tag n => simp [execFault, phaseFault_ne_some, Option.or_eq_some_iff]

/-- Where E_STATE is raised (60_exceptions.md R152). -/
theorem execFault_eq_eState_iff (i : Instr) (s : State) :
    execFault i s = some .eState ↔
      (s.phase = .payload ∧ (i = .crcInit ∨ (∃ d, i = .crcByte d) ∨ i = .crcRead ∨ ∃ tag n, i = .chunkStart tag n)) ∨
      (s.phase = .idle ∧ ∃ d, i = .chunkData d) := by
  cases i with
  | reset | status => simp [execFault]
  | crcInit | crcByte d | crcRead => simp [execFault, phaseFault_idle_eq_eState_iff]
  | chunkStart tag n => simp [execFault, phaseFault_idle_eq_eState_iff, Option.or_eq_some_iff]
  | chunkData d => simp [execFault, phaseFault_payload_eq_eState_iff]

/-- Where E_TAG is raised (60_exceptions.md R153). -/
theorem execFault_eq_eTag_iff (i : Instr) (s : State) :
    execFault i s = some .eTag ↔
      s.phase = .idle ∧ ∃ tag n, i = .chunkStart tag n ∧
        (0x7F#8 < tag.b0 ∨ 0x7F#8 < tag.b1 ∨ 0x7F#8 < tag.b2 ∨ 0x7F#8 < tag.b3) := by
  cases i with
  | reset | status => simp [execFault]
  | crcInit | crcByte d | crcRead | chunkData d => simp [execFault, phaseFault_ne_some]
  | chunkStart tag n =>
    simp [execFault, phaseFault_ne_some, phaseFault_eq_none_iff, tagRefused_eq, ← wellFormed_eq_false_iff,
      Option.or_eq_some_iff]

/-- Where E_HALTED is raised (60_exceptions.md R154). -/
theorem execFault_eq_eHalted_iff (i : Instr) (s : State) :
    execFault i s = some .eHalted ↔ s.phase = .fault ∧ i ≠ .reset ∧ i ≠ .status := by
  constructor
  · intro h
    refine ⟨phase_eq_fault_of_execFault i s h, ?_, ?_⟩
    · rintro rfl; cases h
    · rintro rfl; cases h
  · rintro ⟨hp, hreset, hstatus⟩
    exact execFault_of_fault i s hp hreset hstatus

/-! ## Which words are no command -/

theorem wordFault_eq_eOpcode_iff (w : CmdWord) (s : State) :
    wordFault w s = some .eOpcode ↔ ¬∃ i, decode w = .ok i := by
  cases hd : decode w with
  | error e => simp [wordFault_of_error w s e hd]
  | ok i => simp [wordFault_of_ok w s i hd, execFault_ne_eOpcode]

/-- Which reserved bits a word with a defined opcode has (30_encoding.md R57). -/
theorem reservedClear_eq_false_iff (w : CmdWord)
    (hop : opField w ∈ [0x01#8, 0x02#8, 0x10#8, 0x11#8, 0x12#8, 0x20#8, 0x21#8]) :
    reservedClear w = false ↔
      (opField w ∈ [0x01#8, 0x02#8, 0x10#8, 0x12#8] ∧ (aField w ≠ 0#32 ∨ bField w ≠ 0#32)) ∨
      (opField w ∈ [0x11#8, 0x21#8] ∧ (aField w ≠ 0#32 ∨ reservedHigh (bField w) ≠ 0#24)) := by
  simp only [List.mem_cons, List.not_mem_nil, or_false] at hop
  rcases hop with hop | hop | hop | hop | hop | hop | hop <;>
    simp [reservedClear, hop, ← not_and_or]

/-- A word is no command exactly when its opcode is undefined or it has a reserved bit set (30_encoding.md R57, R58). -/
theorem not_exists_decode_eq_ok_iff (w : CmdWord) :
    (¬∃ i, decode w = .ok i) ↔
      opField w ∉ [0x01#8, 0x02#8, 0x10#8, 0x11#8, 0x12#8, 0x20#8, 0x21#8] ∨
      (opField w ∈ [0x01#8, 0x02#8, 0x10#8, 0x12#8] ∧ (aField w ≠ 0#32 ∨ bField w ≠ 0#32)) ∨
      (opField w ∈ [0x11#8, 0x21#8] ∧ (aField w ≠ 0#32 ∨ reservedHigh (bField w) ≠ 0#24)) := by
  rw [exists_decode_eq_ok_iff, not_and]
  by_cases hop : opField w ∈ [0x01#8, 0x02#8, 0x10#8, 0x11#8, 0x12#8, 0x20#8, 0x21#8]
  · rw [← reservedClear_eq_false_iff w hop, Bool.not_eq_true]
    exact ⟨fun h => .inr (h hop), fun h _ => h.resolve_left (not_not.2 hop)⟩
  · exact iff_of_true (fun h => absurd h hop) (.inl hop)

/-! ## The step on a presented word -/

theorem step_of_command (s : State) (w : CmdWord) (rest : List Event) (hp : s.port = .command w :: rest) :
    step s = acceptWord w { s with port := rest } := by
  rw [step, stepEvent, nextEvent_cons s _ rest hp]
  rfl

/-! ## The obligations -/

/-- Settles O19: E_OPCODE is left to the decoder, which refuses undefined opcodes and set reserved bits. -/
theorem opcodeFaultRaisedExactly : Obligations.OpcodeFaultRaisedExactly := by
  unfold Obligations.OpcodeFaultRaisedExactly
  intro s t w h
  calc
    lastCode t = some 1#4
    _ ↔ wordFault w s = some .eOpcode := lastCode_acceptWord_eq_faultCode_iff w s t .eOpcode h
    _ ↔ ¬∃ i, decode w = .ok i := wordFault_eq_eOpcode_iff w s
    _ ↔ _ := not_exists_decode_eq_ok_iff w

/-- Settles O21: the code answered is that of the first failing check, and each check fails where `execFault` says. -/
theorem phaseAndTagFaultsRaisedExactly : Obligations.PhaseAndTagFaultsRaisedExactly := by
  unfold Obligations.PhaseAndTagFaultsRaisedExactly
  intro i s t h
  have hcode := fun c => lastCode_exec_eq_faultCode_iff i s t c h
  refine ⟨(hcode .eState).trans (execFault_eq_eState_iff i s), (hcode .eTag).trans (execFault_eq_eTag_iff i s),
    (hcode .eHalted).trans (execFault_eq_eHalted_iff i s), fun h4 => ?_⟩
  have hf := (hcode .eHalted).1 h4
  rw [exec_of_refused_halted i s (phase_eq_fault_of_execFault i s hf) hf] at h
  cases h
  rfl

/-- Settles O22: a word answered with a code other than 0 was refused, and fault entry has the frame claimed. -/
theorem refusedCommandIsPrecise : Obligations.RefusedCommandIsPrecise := by
  unfold Obligations.RefusedCommandIsPrecise
  intro s t w rest hp hstep hcode
  rw [step_of_command s w rest hp] at hstep
  rcases acceptWord_next_cases w _ t hstep with ⟨c, -, rfl⟩ | ⟨-, i, -, rfl⟩
  · obtain ⟨hcrc, hrem, hout, hport, hphase, -⟩ := raiseFault_frame c { s with port := rest }
    refine ⟨hcrc, hrem, hout, hport, hphase, fun hfault => ?_, fun hrunning => ?_⟩
    · rw [raiseFault_of_fault c { s with port := rest } hfault]
    · rw [lastCode_raiseFault, raiseFault_of_running c { s with port := rest } hrunning]
  · exact absurd (lastCode_respond _ _) hcode

/-- Settles O23: `acceptWord_of_fault` says what a word does in FAULT, the first failing check what it answers. -/
theorem faultIsStickyUntilReset : Obligations.FaultIsStickyUntilReset := by
  unfold Obligations.FaultIsStickyUntilReset
  refine ⟨fun s t w hp hw h => ?_, fun s t _ h => ?_⟩
  · obtain ⟨r, hr⟩ := acceptWord_of_fault w s hp hw
    cases hr.symm.trans h
    refine ⟨r, rfl, fun c hc => ?_⟩
    rw [← hp, expectedFault_eq_wordFault] at hc
    have hraise := hr.symm.trans (acceptWord_of_refused w s c hc)
    rw [raiseFault_of_fault c s hp] at hraise
    simpa using hraise
  · rw [acceptWord_of_ok _ s .reset (decode_encode .reset), exec_reset] at h
    cases h
    exact ⟨rfl, rfl⟩

/-- Settles O20: fault entry outside FAULT and in it. -/
theorem faultEntryDoesExactlyThis : Obligations.FaultEntryDoesExactlyThis := by
  unfold Obligations.FaultEntryDoesExactlyThis
  exact ⟨rfl, rfl, rfl, rfl, raiseFault_of_running, raiseFault_of_fault⟩

end Sys2Proof.Machine
end

section
/-! SUPPORT. Bytes put in front of OUT stay in front and change nothing else (10_state.md R14, 70_reset_and_hazards.md
R181). -/

namespace Sys2Proof.Machine

theorem step_of_nothing_presented (s : State) (h : s.port = []) : step s = .next s := by
  rw [step, stepEvent, nextEvent_nil s h]

/-- The state with further bytes in front of OUT. -/
def State.withFront (o : List Byte) (s : State) : State := { s with out := o ++ s.out }

theorem acceptWord_port (w : CmdWord) (s t : State) (h : acceptWord w s = .next t) : t.port = s.port := by
  rcases acceptWord_next_cases w s t h with ⟨c, -, rfl⟩ | ⟨-, i, -, rfl⟩
  · obtain ⟨-, -, -, hport, -⟩ := raiseFault_frame c s
    exact hport
  · obtain ⟨hport, -⟩ := perform_frame i s
    exact hport

/-- `acceptWord_withOut` for bytes put in front: they stay in front. -/
theorem acceptWord_withFront (w : CmdWord) (s t : State) (o : List Byte) (h : acceptWord w s = .next t) :
    acceptWord w (s.withFront o) = .next (t.withFront o) := by
  obtain ⟨u, bs, hout, hu⟩ := acceptWord_withOut w s
  have hs : acceptWord w s = .next { u with out := s.out ++ bs } := hu s.out
  cases hs.symm.trans h
  rw [State.withFront, State.withFront, hu, List.append_assoc]

/-- No step presents an event, so a power-on reset that is not presented stays so. -/
theorem step_powerOn_not_mem_port (s t : State) (hp : Event.powerOn ∉ s.port) (h : step s = .next t) :
    Event.powerOn ∉ t.port := by
  rcases step_cases s with ⟨-, hs⟩ | ⟨rest, hport, -⟩ | ⟨w, rest, hport, hs⟩
  · cases hs.symm.trans h
    exact hp
  · exact absurd (hport ▸ List.mem_cons_self) hp
  · rw [acceptWord_port w _ t (hs.symm.trans h)]
    exact fun hmem => hp (hport ▸ List.mem_cons_of_mem _ hmem)

/-- A step that takes no power-on reset keeps the bytes in front of OUT and does not depend on them. -/
theorem step_withFront (s t : State) (o : List Byte) (hp : Event.powerOn ∉ s.port) (h : step s = .next t) :
    step (s.withFront o) = .next (t.withFront o) := by
  rcases step_cases s with ⟨hport, hs⟩ | ⟨rest, hport, -⟩ | ⟨w, rest, hport, hs⟩
  · cases hs.symm.trans h
    exact step_of_nothing_presented _ hport
  · exact absurd (hport ▸ List.mem_cons_self) hp
  · rw [step_of_command (s.withFront o) w rest hport]
    exact acceptWord_withFront w { s with port := rest } t o (hs.symm.trans h)

/-- Settles O29, by induction on the number of steps: each takes the bytes in front along, `step_withFront`. -/
theorem earlierOutputDoesNotInfluence : Obligations.EarlierOutputDoesNotInfluence := by
  unfold Obligations.EarlierOutputDoesNotInfluence
  intro k s o hp
  induction k generalizing s with
  | zero => exact ⟨s, rfl, rfl⟩
  | succ k ih =>
    obtain ⟨u, hstep⟩ := everyStepAnswers s
    obtain ⟨t, hrun, hfront⟩ := ih u (step_powerOn_not_mem_port s u hp hstep)
    exact ⟨t, (run_succ k s u hstep).trans hrun,
      (run_succ k (s.withFront o) (u.withFront o) (step_withFront s u o hp hstep)).trans hfront⟩

end Sys2Proof.Machine
end

section
/-! SUPPORT. Decoder and encoder are inverse to each other (30_encoding.md sections 2, 5 and 7). -/

namespace Sys2Proof

/-- Settles O16, by the commands: `decode_encode`. -/
theorem decodeAfterEncodeIsIdentity : Obligations.DecodeAfterEncodeIsIdentity := by
  unfold Obligations.DecodeAfterEncodeIsIdentity
  exact decode_encode

/-- Settles O17, by the opcodes the decoder tells apart: `encode_of_decode`. -/
theorem encodeAfterDecodeIsIdentity : Obligations.EncodeAfterDecodeIsIdentity := by
  unfold Obligations.EncodeAfterDecodeIsIdentity
  exact encode_of_decode

/-- Settles O15: a written word that is a command is the command's `encode`, which decodes to it; the decoder is run on the
three that are none. -/
theorem writtenWordsDecode : Obligations.WrittenWordsDecode := by
  unfold Obligations.WrittenWordsDecode
  refine ⟨decode_encode .reset, decode_encode .status, decode_encode .crcInit, decode_encode (.crcByte 0x31#8),
    decode_encode .crcRead, decode_encode (.chunkStart ⟨0x49#8, 0x48#8, 0x44#8, 0x52#8⟩ 0xDEADBEEF#32),
    decode_encode (.chunkData 0xAA#8), ?undefinedZero, ?undefined22, ?reserved⟩
  case undefinedZero | undefined22 | reserved => decide

end Sys2Proof
end

section
/-! SUPPORT. A step runs the decoded command (30_encoding.md section 6), and the reset state meets what every step keeps
(10_state.md section 10). -/

namespace Sys2Proof.Machine

theorem step_of_powerOn (s : State) (rest : List Event) (hp : s.port = .powerOn :: rest) :
    step s = .next (powerOnReset { s with port := rest }) := by
  rw [step, stepEvent, nextEvent_cons s _ rest hp]
  rfl

/-- Settles O11: what stands first at the port decides the step, and how a word decodes decides `acceptWord`. -/
theorem stepRunsDecodedCommand : Obligations.StepRunsDecodedCommand := by
  unfold Obligations.StepRunsDecodedCommand
  refine ⟨step_of_command, fun s w rest i hp hd => ?command, fun s w rest e hp hd => ?noCommand,
    step_of_nothing_presented, step_of_powerOn⟩
  case command => rw [step_of_command s w rest hp, acceptWord_of_ok w _ i hd]
  case noCommand => rw [step_of_command s w rest hp, acceptWord_of_error w _ e hd]

/-- Settles O26: the reset state is IDLE, with ERR and REM zero. -/
theorem resetMeetsStateInvariant : Obligations.ResetMeetsStateInvariant := by
  unfold Obligations.ResetMeetsStateInvariant
  exact .of_running State.reset rfl (.inl ⟨rfl, rfl⟩)

/-- Settles O28: the reset state is IDLE, its OUT empty. -/
theorem resetIsFramed : Obligations.ResetIsFramed := by
  unfold Obligations.ResetIsFramed
  exact framed_of_idle State.reset rfl segmented_nil

end Sys2Proof.Machine
end
